-- ==== Sys2Proof/Word.lean ====
section
/-! DEFINITION. The word types of FSME: a stream byte and the 16-bit checksum word (spec/00_scope.md R9). -/

namespace Sys2Proof

/-- A byte is 8 bits, unsigned (R9). -/
abbrev Byte := BitVec 8

/-- The checksum word, `SUM_W = 16` bits, sums modulo 65536 (R6, R18). -/
abbrev Sum16 := BitVec 16

end Sys2Proof
end

