-- ==== Sys2Proof/Config.lean ====
section
/-! DEFINITION. What is fixed when the block is built: the numeric parameters of spec/00_scope.md R6, the three lookup
tables and the switch `H2_REHUNT` (R7, R8), and the free values of what the spec leaves unspecified. -/

namespace Sys2Proof

/-- `HDR1`, the first header byte (R6). -/
abbrev Config.hdr1 : Byte := 0xAB
/-- `HDR2`, the second header byte (R6). -/
abbrev Config.hdr2 : Byte := 0xCD
/-- `L_MIN`, the smallest legal length byte (R6). -/
abbrev Config.lMin : Nat := 3
/-- `L_MAX`, the largest legal length byte (R6). -/
abbrev Config.lMax : Nat := 60
/-- `CK_BYTES`, the checksum bytes at the end of a body (R6). -/
abbrev Config.ckBytes : Nat := 2
/-- `DATA_MAX`, the largest data length and the size of ABUF and of FBUF (R6, R36). -/
abbrev Config.dataMax : Nat := 58
/-- `MEAS_LEN`, the data length of a measurement payload (R6). -/
abbrev Config.measLen : Nat := 14
/-- `DISP_OFF`, the first data byte of the display field (R6). -/
abbrev Config.dispOff : Nat := 2

/-- The default of the switch `H2_REHUNT`, the source's literal reading (R8). -/
abbrev Config.h2RehuntDefault : Bool := false

/-- The build-time parameters of R7 and R8. UNIT_TABLE and EXP_TABLE are finite partial maps (R36), written as lists of
key and value; the first entry of a key counts. Strings are sequences of Unicode characters (R12). -/
structure Params where
  /-- `H2_REHUNT` (R8). -/
  h2Rehunt    : Bool := Config.h2RehuntDefault
  /-- `MODE_TABLE`, indexed by data byte 0 (R7). -/
  modeTable   : List String
  /-- `UNIT_TABLE`, keyed by mode name and range byte (R7). -/
  unitTable   : List ((String × Byte) × String)
  /-- `EXP_TABLE`, keyed by resolved unit string (R7). -/
  expTable    : List (String × Int)
  /-- The prefix characters, each with the power of ten of its prefix: a parameter beside EXP_TABLE, for which no source gives
  the characters (R7; 93_implementation_defined.md I12). No step reads it; `Params.legal` does. -/
  prefixChars : List (Char × Int)
  deriving DecidableEq, Repr, Inhabited

/-- `MODE_TABLE[i]`, `none` when `i >= N_MODES` (R7, R84). -/
def Params.mode (p : Params) (i : Nat) : Option String := p.modeTable[i]?

/-- `UNIT_TABLE(mode, rng)` (R7, R91). -/
def Params.unit (p : Params) (mode : String) (rng : Byte) : Option String :=
  (p.unitTable.find? fun e => e.1.1 == mode && e.1.2 == rng).map (·.2)

/-- `EXP_TABLE(u)` (R7, R92). -/
def Params.exp (p : Params) (u : String) : Option Int :=
  (p.expTable.find? fun e => e.1 == u).map (·.2)

/-- The power of ten of the prefix that a character stands for, `none` for a character that is no prefix (R7). -/
def Params.prefixPower (p : Params) (c : Char) : Option Int :=
  (p.prefixChars.find? fun e => e.1 == c).map (·.2)

/-- What R7 asks of an entry of EXP_TABLE: the exponent is a power of ten of mega, kilo, milli, micro or nano, the unit has at
least two characters, and its first character is the prefix character of that exponent. -/
def Params.legalExpEntry (p : Params) (e : String × Int) : Bool :=
  [6, 3, -3, -6, -9].contains e.2
    && match e.1.toList with
       | c :: _ :: _ => p.prefixPower c == some e.2
       | _ => false

/-- The constraints R7 puts on the tables. The prefix characters are a parameter (93_implementation_defined.md I12), so a
character stands for one prefix throughout EXP_TABLE, whichever that is. -/
def Params.legal (p : Params) : Bool :=
  p.mode 1 == some "ACmV" && p.mode 3 == some "DCmV" && p.modeTable.contains "OHM"
    && p.unit "DCmV" 0x30 == some "mV" && p.unit "OHM" 0x31 == some "kΩ"
    && p.exp "kΩ" == some 3 && p.exp "mV" == none
    && p.expTable.all p.legalExpEntry

/-- The fixture TCFG of spec/95_test_vectors.md section 0: a set of tables that meets R7, not the device's, with the default
H2_REHUNT and the prefix characters that its EXP_TABLE uses. It serves tests and shows that `Params.legal` can be met. -/
def Config.fixture : Params where
  modeTable := ["ACV", "ACmV", "DCV", "DCmV", "Hz", "%", "OHM"]
  unitTable :=
    [(("ACV", 0x30), "V"), (("ACmV", 0x30), "mV"), (("DCV", 0x30), "V"), (("DCV", 0x31), "V"),
     (("DCmV", 0x30), "mV"), (("Hz", 0x30), "Hz"), (("Hz", 0x31), "kHz"), (("%", 0x30), "%"),
     (("OHM", 0x30), "Ω"), (("OHM", 0x31), "kΩ"), (("OHM", 0x32), "kΩ"), (("OHM", 0x34), "MΩ")]
  expTable := [("kΩ", 3), ("MΩ", 6), ("kHz", 3)]
  prefixChars := [('M', 6), ('k', 3)]

/-- The tables this block was built with: a free value (log entry 2). -/
opaque Config.builtParams : Params

/-- The parameters of the block that `State.reset` shows: tables of any value that meets R7, and H2_REHUNT at its default (R8;
log entry 2). `Config.builtParams` has no known value; where it met no constraint it would be no FSME, and the fixture stands in
so that R7 holds in every case. -/
def Config.params : Params :=
  if Config.builtParams.legal then { Config.builtParams with h2Rehunt := Config.h2RehuntDefault } else Config.fixture

/-- The two byte buffers of R36. -/
inductive Space where
  /-- The assembly buffer ABUF (R21). -/
  | abuf
  /-- The frame output buffer FBUF (R22). -/
  | fbuf
  deriving DecidableEq, Repr

/-- A free value: byte `i` of a buffer at a place whose contents the spec leaves unspecified, under draw number `n`
(R21, R22, R43, R44; log entry 3). -/
opaque Config.unspecifiedByte (sp : Space) (n i : Nat) : Byte

end Sys2Proof
end

