-- ==== Sys2Proof/Syntax.lean ====
section
/-! DEFINITION. The operations of FSME: one constructor for each row of spec/opcode_table.json (R59, R60), the byte classes
of R60 by name, and the host's inputs at one clock edge (R14). -/

namespace Sys2Proof

/-- The host's inputs sampled at one rising edge of `clk` (R14): the operation word
`OPW = {rst, clr, dec_start, in_valid}`, rst at bit 3 (R59), and the presented byte. -/
structure Edge where
  opw    : BitVec 4
  inByte : Byte
  deriving DecidableEq, Repr

/-- The rows of R60, in its order. `hdr1` and `noise` have two rows each in the opcode table: one for ST = 0 and one, here
`…Resident`, for the resident states COMPLETE (4) and ERROR (5). -/
inductive ByteClass where
  | hdr1 | hdr1Resident | noise | noiseResident | hdr2 | rehunt | resync | lenOk | lenErr
  | data | ckhi | ckloOk | ckloBad | illegal
  deriving DecidableEq, Repr

/-- One constructor per row of spec/opcode_table.json. The five operation rows are the edges whose operation word selects
that one operation; the byte-class rows are the 11-bit words SBW = (ST << 8) | in_byte, with ST and a fixed byte left out
where the row fixes them. `low` is bit 8 of SBW: ST is 4 + low in the resident rows and 6 + low in ST.ILLEGAL. -/
inductive Instr where
  /-- RESET (R112). -/
  | reset
  /-- CLEAR (R77). -/
  | clear
  /-- PUSH of the byte `b` (R65). -/
  | push (b : Byte)
  /-- DECODE (R82). -/
  | decode
  /-- IDLE (R78). -/
  | idle
  /-- B.HDR1 with ST = 0 (R66). -/
  | bHdr1
  /-- B.HDR1 with ST in {4, 5} (R66). -/
  | bHdr1Resident (low : BitVec 1)
  /-- B.NOISE with ST = 0 (R67). -/
  | bNoise (b : Byte)
  /-- B.NOISE with ST in {4, 5} (R67). -/
  | bNoiseResident (low : BitVec 1) (b : Byte)
  /-- B.HDR2 (R68). -/
  | bHdr2
  /-- B.REHUNT (R69). -/
  | bRehunt
  /-- B.RESYNC (R69). -/
  | bResync (b : Byte)
  /-- B.LEN_OK (R70). -/
  | bLenOk (b : Byte)
  /-- B.LEN_ERR (R71). -/
  | bLenErr (b : Byte)
  /-- B.DATA (R72). -/
  | bData (b : Byte)
  /-- B.CKHI (R73). -/
  | bCkhi (b : Byte)
  /-- B.CKLO_OK (R74). -/
  | bCkloOk (b : Byte)
  /-- B.CKLO_BAD (R75). -/
  | bCkloBad (b : Byte)
  /-- ST.ILLEGAL (R76). -/
  | stIllegal (low : BitVec 1) (b : Byte)
  deriving DecidableEq, Repr

/-- An encoded operation, in one of the opcode table's two formats: `op` is format "ctl" (the operation word, with the
byte on `in_byte`, R59), `sb` is format "byte" (the word SBW, R60). -/
inductive EncWord where
  | op (opw : BitVec 4) (inByte : Byte)
  | sb (sbw : BitVec 11)
  deriving DecidableEq, Repr

/-- The operations one edge performs (R59): one operation, and DECODE alongside it where `dec_start` rides on an edge that
CLEARs or PUSHes. -/
structure EdgeOps where
  main      : Instr
  alongside : Bool
  deriving DecidableEq, Repr

end Sys2Proof
end

