-- ==== Sys2Proof/WellFormed.lean ====
section
/-! DEFINITION. Which terms of `Instr` are operations of the opcode table: the byte conditions of R60. -/

namespace Sys2Proof

/-- `3 <= L <= 60`, the legal length bytes (R6, R70). -/
def legalLen (b : Byte) : Bool := decide (Config.lMin ≤ b.toNat) && decide (b.toNat ≤ Config.lMax)

/-- The byte column of R60. A byte that an earlier row of the same state takes does not belong to a later row. -/
def Instr.wf : Instr → Bool
  | .reset => true
  | .clear => true
  | .push _ => true
  | .decode => true
  | .idle => true
  | .bHdr1 => true
  | .bHdr1Resident _ => true
  | .bNoise b => b != Config.hdr1
  | .bNoiseResident _ b => b != Config.hdr1
  | .bHdr2 => true
  | .bRehunt => true
  | .bResync b => b != Config.hdr2
  | .bLenOk b => legalLen b
  | .bLenErr b => !legalLen b
  | .bData _ => true
  | .bCkhi _ => true
  | .bCkloOk _ => true
  | .bCkloBad _ => true
  | .stIllegal _ _ => true

end Sys2Proof
end

