-- ==== Sys2Proof/Decode.lean ====
section
/-! DEFINITION. Decoding: the operations an operation word selects (R59), the byte class an SBW word selects together with
the conditions of R60, and the encoder written from the same tables. Byte-order and bit-field helpers stand here. -/

namespace Sys2Proof

/-- `(hi << 8) | lo`, the big-endian 16-bit value of two bytes (R9, R37). -/
def joinBytes (hi lo : Byte) : Sum16 := (hi.setWidth 16 <<< 8) ||| lo.setWidth 16

/-- `SBW = (ST << 8) | in_byte` (R60). -/
def sbWord (st : BitVec 3) (b : Byte) : BitVec 11 := (st.setWidth 11 <<< 8) ||| b.setWidth 11

/-- `SBW[10:8]` (R60). -/
def sbState (w : BitVec 11) : BitVec 3 := w.extractLsb' 8 3

/-- `SBW[7:0]` (R60). -/
def sbByte (w : BitVec 11) : Byte := w.extractLsb' 0 8

/-- `SBW[8]`, the state bit that the two-state rows of the opcode table leave free. -/
def sbLow (w : BitVec 11) : BitVec 1 := w.extractLsb' 8 1

/-- `ST = 4 + low`: COMPLETE or ERROR. -/
def residentState (low : BitVec 1) : BitVec 3 := 4 ||| low.setWidth 3

/-- `ST = 6 + low`: the two illegal encodings. -/
def illegalState (low : BitVec 1) : BitVec 3 := 6 ||| low.setWidth 3

/-- `rst`, bit 3 of OPW (R59). -/
def Edge.rst (e : Edge) : Bool := e.opw.getLsbD 3
/-- `clr`, bit 2 of OPW (R59). -/
def Edge.clr (e : Edge) : Bool := e.opw.getLsbD 2
/-- `dec_start`, bit 1 of OPW (R59). -/
def Edge.decStart (e : Edge) : Bool := e.opw.getLsbD 1
/-- `in_valid`, bit 0 of OPW (R59). -/
def Edge.inValid (e : Edge) : Bool := e.opw.getLsbD 0

/-- The first operation an edge performs, in the priority of R104: RESET, CLEAR, PUSH, and with none of them DECODE, else
IDLE. The recovery from an illegal ST stands between CLEAR and PUSH there; it depends on ST, not on the word, and the
meanings of PUSH, DECODE and IDLE take it. -/
def decodeOp (e : Edge) : Instr :=
  if e.rst then .reset
  else if e.clr then .clear
  else if e.inValid then .push e.inByte
  else if e.decStart then .decode
  else .idle

/-- The operations OPW selects (R59): "DECODE is a channel of its own", so a word such as 0011 performs PUSH and DECODE.
RESET overrides everything. -/
def decodeEdge (e : Edge) : EdgeOps where
  main := decodeOp e
  alongside := !e.rst && e.decStart && (e.clr || e.inValid)

/-- The conditions R60 reads beside SBW. -/
structure ClassCtx where
  h2Rehunt : Bool
  len      : BitVec 8
  cnt      : BitVec 6
  sum      : Sum16
  ckhi     : Byte
  deriving DecidableEq, Repr

/-- The READ_BODY rows of R60 (ST = 3). The conditions compare integers, so that `LEN - 2` of a length below 2 matches no
CNT; no row matches when CNT >= LEN (log entry 5). -/
def bodyClass (c : ClassCtx) (b : Byte) : Option ByteClass :=
  if c.cnt.toNat + 2 < c.len.toNat then some .data
  else if c.cnt.toNat + 2 = c.len.toNat then some .ckhi
  else if c.cnt.toNat + 1 = c.len.toNat then
    if c.sum = joinBytes c.ckhi b then some .ckloOk else some .ckloBad
  else none

/-- R60: the byte class of a byte presented in state `st`. Rows are tried top to bottom within a state. States 6 and 7 give
ST.ILLEGAL whatever the byte (R76). -/
def classify (c : ClassCtx) (st : BitVec 3) (b : Byte) : Option ByteClass :=
  if st = 0 then if b = Config.hdr1 then some .hdr1 else some .noise
  else if st = 1 then
    if b = Config.hdr2 then some .hdr2
    else if b = Config.hdr1 then if c.h2Rehunt then some .rehunt else some .resync
    else some .resync
  else if st = 2 then if legalLen b then some .lenOk else some .lenErr
  else if st = 3 then bodyClass c b
  else if st = 4 ∨ st = 5 then if b = Config.hdr1 then some .hdr1Resident else some .noiseResident
  else some .illegal

/-- The operation that stands for a byte class at the word `w`. -/
def ByteClass.toInstr (w : BitVec 11) : ByteClass → Instr
  | .hdr1 => .bHdr1
  | .hdr1Resident => .bHdr1Resident (sbLow w)
  | .noise => .bNoise (sbByte w)
  | .noiseResident => .bNoiseResident (sbLow w) (sbByte w)
  | .hdr2 => .bHdr2
  | .rehunt => .bRehunt
  | .resync => .bResync (sbByte w)
  | .lenOk => .bLenOk (sbByte w)
  | .lenErr => .bLenErr (sbByte w)
  | .data => .bData (sbByte w)
  | .ckhi => .bCkhi (sbByte w)
  | .ckloOk => .bCkloOk (sbByte w)
  | .ckloBad => .bCkloBad (sbByte w)
  | .illegal => .stIllegal (sbLow w) (sbByte w)

/-- Why a word is no operation. -/
inductive Reject where
  /-- An SBW word in READ_BODY for which no row of R60 holds (CNT >= LEN, log entry 5). -/
  | noByteClass
  /-- A table word with bits that neither format of the opcode table has. -/
  | noSuchFormat
  deriving DecidableEq, Repr

/-- Decode one word of the opcode table. The row of an SBW word depends on the conditions of R60, given as `c`. -/
def decode (c : ClassCtx) : EncWord → Except Reject Instr
  | .op opw b => .ok (decodeOp { opw := opw, inByte := b })
  | .sb w =>
    match classify c (sbState w) (sbByte w) with
    | some k => .ok (k.toInstr w)
    | none => .error .noByteClass

/-- The condition column of R60 for an operation's row. -/
def Instr.fits (c : ClassCtx) : Instr → Bool
  | .reset => true
  | .clear => true
  | .push _ => true
  | .decode => true
  | .idle => true
  | .bHdr1 => true
  | .bHdr1Resident _ => true
  | .bNoise _ => true
  | .bNoiseResident _ _ => true
  | .bHdr2 => true
  | .bRehunt => c.h2Rehunt
  | .bResync b => !(b == Config.hdr1 && c.h2Rehunt)
  | .bLenOk _ => true
  | .bLenErr _ => true
  | .bData _ => decide (c.cnt.toNat + 2 < c.len.toNat)
  | .bCkhi _ => decide (c.cnt.toNat + 2 = c.len.toNat)
  | .bCkloOk b => decide (c.cnt.toNat + 1 = c.len.toNat) && c.sum == joinBytes c.ckhi b
  | .bCkloBad b => decide (c.cnt.toNat + 1 = c.len.toNat) && c.sum != joinBytes c.ckhi b
  | .stIllegal _ _ => true

/-- The encoder: the operation word of R59 with its don't-care bits zero, or the SBW word of R60. -/
def encode : Instr → EncWord
  | .reset => .op 0b1000 0
  | .clear => .op 0b0100 0
  | .push b => .op 0b0001 b
  | .decode => .op 0b0010 0
  | .idle => .op 0b0000 0
  | .bHdr1 => .sb (sbWord 0 Config.hdr1)
  | .bHdr1Resident low => .sb (sbWord (residentState low) Config.hdr1)
  | .bNoise b => .sb (sbWord 0 b)
  | .bNoiseResident low b => .sb (sbWord (residentState low) b)
  | .bHdr2 => .sb (sbWord 1 Config.hdr2)
  | .bRehunt => .sb (sbWord 1 Config.hdr1)
  | .bResync b => .sb (sbWord 1 b)
  | .bLenOk b => .sb (sbWord 2 b)
  | .bLenErr b => .sb (sbWord 2 b)
  | .bData b => .sb (sbWord 3 b)
  | .bCkhi b => .sb (sbWord 3 b)
  | .bCkloOk b => .sb (sbWord 3 b)
  | .bCkloBad b => .sb (sbWord 3 b)
  | .stIllegal low b => .sb (sbWord (illegalState low) b)

/-- The match and mask columns of spec/opcode_table.json, as written there, over OPW for the operation rows and over SBW for
the byte-class rows. -/
def Instr.row : Instr → Nat × Nat
  | .reset => (0b1000, 0b1000)
  | .clear => (0b0100, 0b1100)
  | .push _ => (0b0001, 0b1101)
  | .decode => (0b0010, 0b1010)
  | .idle => (0b0000, 0b1111)
  | .bHdr1 => (0x0AB, 0x7FF)
  | .bHdr1Resident _ => (0x4AB, 0x6FF)
  | .bNoise _ => (0x000, 0x700)
  | .bNoiseResident _ _ => (0x400, 0x600)
  | .bHdr2 => (0x1CD, 0x7FF)
  | .bRehunt => (0x1AB, 0x7FF)
  | .bResync _ => (0x100, 0x700)
  | .bLenOk _ => (0x200, 0x700)
  | .bLenErr _ => (0x200, 0x700)
  | .bData _ => (0x300, 0x700)
  | .bCkhi _ => (0x300, 0x700)
  | .bCkloOk _ => (0x300, 0x700)
  | .bCkloBad _ => (0x300, 0x700)
  | .stIllegal _ _ => (0x600, 0x600)

/-- The number an encoded word is, its own format's bits only: OPW or SBW. -/
def EncWord.bits : EncWord → Nat
  | .op opw _ => opw.toNat
  | .sb w => w.toNat

/-- The conditions under which a table word with nothing beside it is read: the first data byte of the shortest frame, and
`H2_REHUNT = true` for the one word 0x1AB, whose row B.REHUNT comes first and exists under that switch only (log entry 6).
The four READ_BODY rows, and the two length rows, share their words' fixed bits; the conditions tell them apart. -/
def tableCtx (w : BitVec 11) : ClassCtx where
  h2Rehunt := decide (w = 0x1AB)
  len := 3
  cnt := 0
  sum := 0
  ckhi := 0

/-- The encoded word of a table word of `nbits` bits: one byte holds OPW (the byte on `in_byte` is then 0), two hold SBW. -/
def tableEnc (nbits w : Nat) : Except Reject EncWord :=
  if nbits ≤ 8 then
    if w < 16 then .ok (.op (BitVec.ofNat 4 w) 0) else .error .noSuchFormat
  else if nbits ≤ 16 then
    if w < 2048 then .ok (.sb (BitVec.ofNat 11 w)) else .error .noSuchFormat
  else .error .noSuchFormat

/-- Decode a table word, rejecting by name. -/
def decodeTable (nbits w : Nat) : Except Reject Instr :=
  match tableEnc nbits w with
  | .ok (.sb x) => decode (tableCtx x) (.sb x)
  | .ok e => decode (tableCtx 0) e
  | .error r => .error r

/-- The instruction the decoder reads from a table word. -/
def decodeTableWord (nbits w : Nat) : Option Instr :=
  match decodeTable nbits w with
  | .ok i => some i
  | .error _ => none

end Sys2Proof
end

