-- ==== Sys2Proof/Machine/State.lean ====
section
/-! DEFINITION. The state of FSME: every register of spec/10_state.md (R15 to R31), the two byte buffers and the build-time
tables of R36, the host's edges still to come, and the model's two draw counters; the state after reset; how a step can stop. -/

namespace Sys2Proof.Machine

/-- The contents of one byte buffer (R36): index and byte, for the bytes that have been written. A byte with no entry holds an
unspecified value, so an entry never repeats it. -/
abbrev Memory := List Host.Cell

/-- The one canonical form: indices strictly rising. -/
abbrev Memory.wf (m : Memory) : Prop := m.Pairwise fun a b => a.1 < b.1

/-- The synchronizer registers (10_state.md section 2). -/
structure Sync where
  /-- `ST[2:0]`, 0 AWAIT_HDR1, 1 AWAIT_HDR2, 2 AWAIT_LEN, 3 READ_BODY, 4 COMPLETE, 5 ERROR, 6 and 7 illegal (R15). -/
  st   : BitVec 3
  /-- `LEN[7:0]`, the length byte (R16). -/
  len  : BitVec 8
  /-- `CNT[5:0]`, body bytes accepted (R17). -/
  cnt  : BitVec 6
  /-- `SUM[15:0]`, the running checksum (R18). -/
  sum  : Sum16
  /-- `CKHI[7:0]`, hidden: the received checksum's high byte (R19). -/
  ckhi : Byte
  /-- `CKRX[15:0]`, the received checksum (R20). -/
  ckrx : Sum16
  /-- `ABUF[0..57]`, hidden: the assembly buffer (R21). -/
  abuf : Memory
  deriving DecidableEq, Repr

/-- The frame output registers (10_state.md section 3). -/
structure FrameOut where
  /-- `FBUF[0..57]`, the data of the newest valid frame (R22). -/
  fbuf   : Memory
  /-- `FLEN[5:0]` (R23). -/
  flen   : BitVec 6
  /-- `FVALID` (R24). -/
  fvalid : Bool
  /-- `FSEQ[7:0]`, frames completed modulo 256 (R25). -/
  fseq   : BitVec 8
  deriving DecidableEq, Repr

/-- The event registers (10_state.md section 4). -/
structure Events where
  /-- `LAST_EV[2:0]`: 0 NONE, 1 FRAME_OK, 2 ERR_LEN, 3 ERR_CKSUM, 4 ERR_STATE (R26). -/
  lastEv : BitVec 3
  /-- `EV_STB` (R27). -/
  evStb  : Bool
  /-- `ESEQ[7:0]`, error events modulo 256 (R28). -/
  eseq   : BitVec 8
  deriving DecidableEq, Repr

/-- The measurement field registers (R30). -/
structure Fields where
  /-- `MR_MODE_IDX[7:0]`. -/
  modeIdx  : Byte
  /-- `MR_RANGE[7:0]`. -/
  range    : Byte
  /-- `MR_DISP[0..6]`, unstripped. -/
  disp     : Vector Byte 7
  /-- `MR_CLASS[1:0]`: 0 NUM, 1 OVL, 2 NCV. -/
  cls      : BitVec 2
  /-- `MR_NEG`. -/
  neg      : Bool
  /-- `MR_MANT[23:0]`. -/
  mant     : BitVec 24
  /-- `MR_EXP[4:0]`, two's complement. -/
  exp      : BitVec 5
  /-- `MR_STRIP`. -/
  strip    : Bool
  /-- `MR_PROGRESS[11:0]`. -/
  progress : BitVec 12
  /-- `MR_FLAGS[10:0]`, laid out as R31. -/
  flags    : BitVec 11
  deriving DecidableEq, Repr

/-- Every field register 0: the reset values of R30, and the fields of a failed decode (R97). -/
def Fields.zero : Fields where
  modeIdx := 0
  range := 0
  disp := #v[0, 0, 0, 0, 0, 0, 0]
  cls := 0
  neg := false
  mant := 0
  exp := 0
  strip := false
  progress := 0
  flags := 0

/-- The measurement result registers (R29, R30). -/
structure Meas where
  /-- `MR_VALID`. -/
  valid  : Bool
  /-- `MR_ERR[2:0]`: 0 NONE, 1 ERR_INPUT, 2 ERR_MODE, 3 ERR_PARSE, 4 ERR_UNIT. -/
  err    : BitVec 3
  /-- `MR_STB`. -/
  stb    : Bool
  /-- `MR_FSEQ[7:0]`. -/
  fseq   : BitVec 8
  /-- The field registers (R30). -/
  fields : Fields
  deriving DecidableEq, Repr

/-- The whole machine. `params` are the build-time parameters (R7, R8): plain data that no step writes, carried here so that a
claim holds for every value of them (log entry 2). `inputs` are the host's edges still to come, first edge first (R13, R46; log
entry 4). `abufDraw` and `fbufDraw` are the model's own counters: they number the draws of unspecified bytes of the two buffers
(log entry 3). -/
structure State where
  sync     : Sync
  frame    : FrameOut
  ev       : Events
  meas     : Meas
  params   : Params
  inputs   : List Edge
  abufDraw : Nat
  fbufDraw : Nat
  deriving DecidableEq, Repr

/-- Why the machine stops. Both reasons are out of reach of every run that starts at a RESET edge. -/
inductive Fault where
  /-- Raised by PUSH in READ_BODY with CNT >= LEN, where no row of R60 holds: the spec gives that edge no effect. Safe: the
  hardware goes on in some way that the spec does not state (log entry 5). -/
  | noByteClass
  /-- Raised by B.DATA, B.CKLO_OK (and PUSH performing them) on a buffer index above 57, which R36 says does not exist; only a
  LEN above 60 in READ_BODY leads there. Safe (log entry 5). -/
  | noSuchByte
  deriving DecidableEq, Repr

/-- Why an instruction has no meaning here. -/
inductive Refusal where
  /-- An instruction that has no meaning in the model yet. Safe. -/
  | notModelled (mnemonic : String)
  /-- Raised by a byte-class row asked for in a state in which R60 does not select it: its word SBW holds ST, so no edge of the
  hardware performs it there. `step` never raises it. Safe (log entry 7). -/
  | classNotSelected
  deriving DecidableEq, Repr

/-- The outcome of one edge. -/
abbrev Result := Host.Outcome State Fault Refusal

/-- The state right after a RESET edge (R112): every register at the value its rule of 10_state.md states; ABUF and FBUF hold
nothing known (R21, R22); the parameters are the block's own. -/
def State.reset : State where
  sync := { st := 0, len := 0, cnt := 0, sum := 0, ckhi := 0, ckrx := 0, abuf := [] }
  frame := { fbuf := [], flen := 0, fvalid := false, fseq := 0 }
  ev := { lastEv := 0, evStb := false, eseq := 0 }
  meas := { valid := false, err := 0, stb := false, fseq := 0, fields := Fields.zero }
  params := Config.params
  inputs := []
  abufDraw := 0
  fbufDraw := 0

end Sys2Proof.Machine
end

