-- ==== Sys2Proof/Machine/Ops.lean ====
section
/-! DEFINITION. The named operations the meanings share: buffer reads and writes (R11, R36), the conditions of R60 read from
the state, recording an event (R100; FSME's one form of taking an exception, R106, from which nothing returns, R107), publishing
a frame (R40, R74), and how two operations of one edge are put together (R10, R104). -/

namespace Sys2Proof.Machine

/-- The byte stored at index `i`, if one was written. -/
def Memory.lookup : Memory → Nat → Option Byte
  | [], _ => none
  | (a, v) :: m, i => if a = i then some v else Memory.lookup m i

/-- Write byte `v` at index `i`, keeping the indices rising. -/
def Memory.write : Memory → Nat → Byte → Memory
  | [], i, v => [(i, v)]
  | (a, w) :: m, i, v =>
    if i < a then (i, v) :: (a, w) :: m
    else if i = a then (i, v) :: m
    else (a, w) :: Memory.write m i v

/-- `ABUF[i]`. A byte that nothing has written holds an unspecified value (R21, R43). -/
def abufByte (s : State) (i : Nat) : Byte :=
  (s.sync.abuf.lookup i).getD (Config.unspecifiedByte .abuf s.abufDraw i)

/-- `FBUF[i]`. Bytes FLEN..57 hold an unspecified value (R22, R44). -/
def fbufByte (s : State) (i : Nat) : Byte :=
  if i < s.frame.flen.toNat then (s.frame.fbuf.lookup i).getD (Config.unspecifiedByte .fbuf s.fbufDraw i)
  else Config.unspecifiedByte .fbuf s.fbufDraw i

/-- The host's read of the visible register byte `FBUF[i]`, which has no side effect (R42); there is no byte above index 57
(R36). -/
def hostReadFbuf (s : State) (i : Nat) : Option Byte :=
  if i < Config.dataMax then some (fbufByte s i) else none

/-- The conditions that R60 reads, taken from the registers before the edge. -/
def classCtx (s : State) : ClassCtx where
  h2Rehunt := s.params.h2Rehunt
  len := s.sync.len
  cnt := s.sync.cnt
  sum := s.sync.sum
  ckhi := s.sync.ckhi

/-- `ST <- v`. -/
def setSt (v : BitVec 3) (s : State) : State := { s with sync := { s.sync with st := v } }

/-- The synchronizer's events (R99). -/
inductive Event where
  | frameOk | errLen | errCksum | errState
  deriving DecidableEq, Repr

/-- The LAST_EV code of an event (R26, R99). -/
def eventCode : Event → BitVec 3
  | .frameOk => 1
  | .errLen => 2
  | .errCksum => 3
  | .errState => 4

/-- R100, at every edge with rst = 0: record the event of this edge, or that there is none. -/
def recordEvent (e : Option Event) (s : State) : State :=
  match e with
  | none => { s with ev := { s.ev with evStb := false } }
  | some .frameOk => { s with ev := { s.ev with lastEv := eventCode .frameOk, evStb := true } }
  | some k => { s with ev := { lastEv := eventCode k, evStb := true, eseq := s.ev.eseq + 1 } }

/-- `MR_STB <- 0`, at every edge without DECODE (R82). -/
def noDecode (s : State) : State := { s with meas := { s.meas with stb := false } }

/-- The end of an edge without DECODE: record its event, and MR_STB goes to 0. -/
def finish (e : Option Event) (s : State) : Result := .next (noDecode (recordEvent e s))

/-- Perform a byte-class row only where R60 selects it: the word's ST bits are the register's, and the row is the one that
matches (log entry 7). -/
def ifSelected (s : State) (st : BitVec 3) (b : Byte) (k : ByteClass) (o : Result) : Result :=
  if s.sync.st = st ∧ classify (classCtx s) st b = some k then o else .refused .classNotSelected

/-- ST holds 6 or 7 (R76). -/
def illegalSt (s : State) : Bool := s.sync.st == 6 || s.sync.st == 7

/-- Recovery from an illegal state encoding (R76): `ST <- 5; raise ERR_STATE`. -/
def recoverSt (s : State) : State := recordEvent (some .errState) (setSt 5 s)

/-- The synchronizer part of an edge with rst = 0, clr = 0 and no byte: the recovery where ST is illegal, whatever in_valid is
(R59, R76), else nothing but `EV_STB <- 0` (R78). -/
def idleSync (s : State) : State := if illegalSt s then recoverSt s else recordEvent none s

/-- `(0xAB + 0xCD + b) mod 2^16` (R70). -/
def headerSum (b : Byte) : Sum16 := Config.hdr1.setWidth 16 + Config.hdr2.setWidth 16 + b.setWidth 16

/-- `cks(L, d)` of R63: the 16-bit sum of the header bytes, the length byte and the data. -/
def cks (len : Byte) (d : List Byte) : Sum16 := d.foldl (fun a b => a + b.setWidth 16) (headerSum len)

/-- The first `n` bytes of ABUF, as the cells of a buffer. -/
def abufCells (s : State) (n : Nat) : Memory := (List.range n).map fun i => (i, abufByte s i)

/-- Publish the frame in ABUF (R40, R74): FBUF, FLEN, FVALID and FSEQ change together. FBUF bytes LEN-2..57 are unspecified from
here on, so they lose their entries and a fresh draw stands for them (R44; log entry 3). -/
def publish (s : State) : State :=
  { s with
    frame :=
      { fbuf := abufCells s (s.sync.len.toNat - 2)
        flen := (s.sync.len - 2).setWidth 6
        fvalid := true
        fseq := s.frame.fseq + 1 }
    fbufDraw := s.fbufDraw + 1 }

/-- The inputs of the next edge. With no edge of the host's left, it drives every control input to 0 (log entry 4). -/
def nextEdge (s : State) : Edge :=
  match s.inputs with
  | [] => { opw := 0, inByte := 0 }
  | e :: _ => e

/-- The state once the next edge's inputs are taken. -/
def takeEdge (s : State) : State := { s with inputs := s.inputs.tail }

/-- DECODE alongside another operation of the same edge (R10, R104): both read the state before the edge; the MR registers are
DECODE's, everything else the other operation's. -/
def alongside (o d : Result) : Result :=
  match o, d with
  | .next t, .next u => .next { t with meas := u.meas }
  | .next _, r => r
  | r, _ => r

/-- Perform the operations of one edge. -/
def performOps (ex : Instr → State → Result) (ops : EdgeOps) (s : State) : Result :=
  if ops.alongside then alongside (ex ops.main s) (ex .decode s) else ex ops.main s

end Sys2Proof.Machine
end

