-- ==== Sys2Proof/Machine/Operands.lean ====
section
/-! DEFINITION. The measurement payload's operands (R52 to R58): display text and its stripping, the overload and NCV sentinels,
the decimal grammar, unit and exponent lookup, progress; and the derived outputs of R32. -/

namespace Sys2Proof.Machine

/-- The measurement classes, with the MR_CLASS codes of R30. -/
inductive MeasClass where
  | num | ovl | ncv
  deriving DecidableEq, Repr

/-- The MR_CLASS code (R30). -/
def classCode : MeasClass → BitVec 2
  | .num => 0
  | .ovl => 1
  | .ncv => 2

/-- A decimal value `(-1)^neg * mant * 10^exp`, exact (R12). -/
structure Decimal where
  neg  : Bool
  mant : Nat
  exp  : Int
  deriving DecidableEq, Repr

/-- The numeric value of a decimal, an exact rational number (R12). -/
def Decimal.value (v : Decimal) : ℚ := (if v.neg then -1 else 1) * v.mant * (10 : ℚ) ^ v.exp

/-- The display field `d[2..8]` (R52, R86). -/
def displayOf (d : Nat → Byte) : Vector Byte 7 := #v[d 2, d 3, d 4, d 5, d 6, d 7, d 8]

/-- `strip(s)`: every byte 0x20 removed, wherever it stands (R87). -/
def strip (s : List Byte) : List Byte := s.filter fun b => b != 0x20

/-- The eight overload sentinels (R56). -/
def ovlSet : List (List Byte) :=
  [[0x2E, 0x4F, 0x4C], [0x4F, 0x2E, 0x4C], [0x4F, 0x4C, 0x2E], [0x4F, 0x4C],
   [0x2D, 0x2E, 0x4F, 0x4C], [0x2D, 0x4F, 0x2E, 0x4C], [0x2D, 0x4F, 0x4C, 0x2E], [0x2D, 0x4F, 0x4C]]

/-- The six NCV sentinels, in the order of their ordinals 0..5 (R57). -/
def ncvList : List (List Byte) :=
  [[0x45, 0x46], [0x2D], [0x2D, 0x2D], [0x2D, 0x2D, 0x2D], [0x2D, 0x2D, 0x2D, 0x2D],
   [0x2D, 0x2D, 0x2D, 0x2D, 0x2D]]

/-- `NCV_MAP[t]` (R57). -/
def ncvOrdinal (t : List Byte) : Option Nat := ncvList.findIdx? fun x => x == t

/-- `'0'..'9'` (R58). -/
def isDigit (b : Byte) : Bool := decide (0x30 ≤ b.toNat) && decide (b.toNat ≤ 0x39)

/-- The longest run of digits at the front, and what follows it. -/
def spanDigits : List Byte → List Byte × List Byte
  | [] => ([], [])
  | b :: t => if isDigit b then (b :: (spanDigits t).1, (spanDigits t).2) else ([], b :: t)

/-- The natural number a run of digits spells (R58). -/
def digitsValue (ds : List Byte) : Nat := ds.foldl (fun n b => 10 * n + (b.toNat - 0x30)) 0

/-- `sign?`: whether the sign is `-`, and the rest (R58). -/
def splitSign : List Byte → Bool × List Byte
  | [] => (false, [])
  | b :: t => if b = 0x2D then (true, t) else if b = 0x2B then (false, t) else (false, b :: t)

/-- `mantissa := digit+ ( '.' digit* )?  |  '.' digit+` (R58): the digits before the point and, if there is a point, those
after it. -/
def splitMantissa (t : List Byte) : Option (List Byte × List Byte) :=
  match (spanDigits t).2 with
  | [] => if (spanDigits t).1.isEmpty then none else some ((spanDigits t).1, [])
  | p :: frac =>
    if p = 0x2E ∧ frac.all isDigit ∧ !((spanDigits t).1.isEmpty && frac.isEmpty) then some ((spanDigits t).1, frac)
    else none

/-- The decimal literal grammar and its value (R58, R90). `none` is a text that does not match. -/
def parseLiteral (t : List Byte) : Option Decimal :=
  match splitMantissa (splitSign t).2 with
  | none => none
  | some (ip, fp) =>
    some { neg := (splitSign t).1, mant := digitsValue (ip ++ fp), exp := -(fp.length : Int) }

/-- Step 4 (R88, R89, R90): overload first, then NCV, then the decimal parse. `none` is ERR_PARSE. -/
def classifyText (t : List Byte) : Option (MeasClass × Decimal) :=
  if t ∈ ovlSet then some (.ovl, { neg := false, mant := 0, exp := 0 })
  else
    match ncvOrdinal t with
    | some n => some (.ncv, { neg := false, mant := n, exp := 0 })
    | none => (parseLiteral t).map fun v => (.num, v)

/-- Step 6 (R92): fold the exponent of the unit into the value, unless it is an overload. The Bool is MR_STRIP. -/
def scale (p : Params) (k : MeasClass) (v : Decimal) (u : String) : Decimal × Bool :=
  if k = .ovl then (v, false)
  else
    match p.exp u with
    | some e => ({ v with exp := v.exp + e }, true)
    | none => (v, false)

/-- `d[9] * 10 + d[10]` over the raw byte values (R93). -/
def progressOf (d9 d10 : Byte) : BitVec 12 := d9.setWidth 12 * 10 + d10.setWidth 12

/-- `drop1(s)`: the first character removed (R11, R32). -/
def drop1 (s : String) : String := String.ofList (s.toList.drop 1)

/-- `MR_MODE`, defined only when MR_VALID = 1 (R32). -/
def outMode (s : State) : Option String :=
  if s.meas.valid then s.params.mode s.meas.fields.modeIdx.toNat else none

/-- `MR_TEXT`, defined only when MR_VALID = 1 (R32). -/
def outText (s : State) : Option (List Byte) :=
  if s.meas.valid then some (strip s.meas.fields.disp.toList) else none

/-- `MR_UNIT_RES`, the resolved unit, defined only when MR_VALID = 1 (R32). -/
def outUnitRes (s : State) : Option String :=
  match outMode s with
  | some m => s.params.unit m s.meas.fields.range
  | none => none

/-- `MR_UNIT`, defined only when MR_VALID = 1 (R32). -/
def outUnit (s : State) : Option String :=
  (outUnitRes s).map fun u => if s.meas.fields.strip then drop1 u else u

/-- `MR_NCV_ORD`, defined only when MR_VALID = 1 and MR_CLASS = 2 (R32). -/
def outNcvOrd (s : State) : Option (BitVec 24) :=
  if s.meas.valid ∧ s.meas.fields.cls = 2 then some s.meas.fields.mant else none

/-- `numericValue = (-1)^MR_NEG * MR_MANT * 10^sext(MR_EXP)` (R30). An overload's value means nothing (R88), and there is no
value without a successful decode. -/
def outValue (s : State) : Option ℚ :=
  if s.meas.valid ∧ s.meas.fields.cls ≠ 1 then
    some (Decimal.value
      { neg := s.meas.fields.neg, mant := s.meas.fields.mant.toNat, exp := s.meas.fields.exp.toInt })
  else none

end Sys2Proof.Machine
end

