-- ==== Sys2Proof/Machine/Flags.lean ====
section
/-! DEFINITION. The eleven measurement flags: MR_FLAGS from the flag bytes d[11], d[12] and d[13] (R53 to R55, R94 to R96),
laid out as R31. -/

namespace Sys2Proof.Machine

/-- Bit `i` of `b` as a flag at bit `j` of MR_FLAGS. -/
def flagBit (v : Bool) (j : Nat) : BitVec 11 := (BitVec.ofBool v).setWidth 11 <<< j

/-- Flag group A, d[11]: isRel, isHold, isMin, isMax at bits 0..3 (R53, R94). -/
def flagsA (d11 : Byte) : BitVec 11 :=
  flagBit (d11.getLsbD 0) 0 ||| flagBit (d11.getLsbD 1) 1 ||| flagBit (d11.getLsbD 2) 2 ||| flagBit (d11.getLsbD 3) 3

/-- Flag group B, d[12]: hasHvWarning and hasBatteryWarning at bits 4 and 5, isAuto, inverted, at bit 6 (R54, R95). -/
def flagsB (d12 : Byte) : BitVec 11 :=
  flagBit (d12.getLsbD 0) 4 ||| flagBit (d12.getLsbD 1) 5 ||| flagBit (!d12.getLsbD 2) 6

/-- Flag group C, d[13]: isBarPolarity, isMinPeak, isMaxPeak, isDC at bits 7..10 (R55, R96). -/
def flagsC (d13 : Byte) : BitVec 11 :=
  flagBit (d13.getLsbD 0) 7 ||| flagBit (d13.getLsbD 1) 8 ||| flagBit (d13.getLsbD 2) 9 ||| flagBit (d13.getLsbD 3) 10

/-- `flags(d[11], d[12], d[13])` (R82). -/
def flagsOf (d11 d12 d13 : Byte) : BitVec 11 := flagsA d11 ||| flagsB d12 ||| flagsC d13

end Sys2Proof.Machine
end

