-- ==== Sys2Proof/Machine/Hunt.lean ====
section
/-! DEFINITION. Byte classes of the header search: B.HDR1, B.NOISE, B.HDR2, B.REHUNT, B.RESYNC (R66 to R69). -/

namespace Sys2Proof.Machine

/-- B.HDR1 in AWAIT_HDR1: `ST <- 1` (R66). -/
def execBHdr1 (s : State) : Result := ifSelected s 0 Config.hdr1 .hdr1 (finish none (setSt 1 s))

/-- B.HDR1 in COMPLETE or ERROR: `ST <- 1`, a new frame starts (R66). -/
def execBHdr1Resident (low : BitVec 1) (s : State) : Result :=
  ifSelected s (residentState low) Config.hdr1 .hdr1Resident (finish none (setSt 1 s))

/-- B.NOISE in AWAIT_HDR1: `ST <- 0` (R67). -/
def execBNoise (b : Byte) (s : State) : Result := ifSelected s 0 b .noise (finish none (setSt 0 s))

/-- B.NOISE in COMPLETE or ERROR: `ST <- 0` (R67). -/
def execBNoiseResident (low : BitVec 1) (b : Byte) (s : State) : Result :=
  ifSelected s (residentState low) b .noiseResident (finish none (setSt 0 s))

/-- B.HDR2: `ST <- 2` (R68). -/
def execBHdr2 (s : State) : Result := ifSelected s 1 Config.hdr2 .hdr2 (finish none (setSt 2 s))

/-- B.REHUNT: `ST <- 1` (R69). -/
def execBRehunt (s : State) : Result := ifSelected s 1 Config.hdr1 .rehunt (finish none (setSt 1 s))

/-- B.RESYNC: `ST <- 0` (R69). -/
def execBResync (b : Byte) (s : State) : Result := ifSelected s 1 b .resync (finish none (setSt 0 s))

end Sys2Proof.Machine
end

