-- ==== Sys2Proof/Machine/Body.lean ====
section
/-! DEFINITION. Byte classes of the length byte and the body: B.LEN_OK, B.LEN_ERR, B.DATA, B.CKHI, B.CKLO_OK, B.CKLO_BAD (R70 to
R75). -/

namespace Sys2Proof.Machine

/-- B.LEN_OK: `LEN <- b; CNT <- 0; SUM <- 0xAB + 0xCD + b; ST <- 3` (R70). -/
def execBLenOk (b : Byte) (s : State) : Result :=
  ifSelected s 2 b .lenOk
    (finish none { s with sync := { s.sync with len := b, cnt := 0, sum := headerSum b, st := 3 } })

/-- B.LEN_ERR: `LEN <- b; ST <- 5; raise ERR_LEN` (R71). -/
def execBLenErr (b : Byte) (s : State) : Result :=
  ifSelected s 2 b .lenErr (finish (some .errLen) { s with sync := { s.sync with len := b, st := 5 } })

/-- B.DATA: `ABUF[CNT] <- b; SUM <- SUM + b; CNT <- CNT + 1` (R72). -/
def execBData (b : Byte) (s : State) : Result :=
  ifSelected s 3 b .data
    (if s.sync.cnt.toNat < Config.dataMax then
      finish none
        { s with
          sync :=
            { s.sync with
              abuf := s.sync.abuf.write s.sync.cnt.toNat b
              sum := s.sync.sum + b.setWidth 16
              cnt := s.sync.cnt + 1 } }
    else .fault .noSuchByte)

/-- B.CKHI: `CKHI <- b; CNT <- CNT + 1` (R73). DESIGN CHOICE: with LEN = 65 and CNT = 63, which no rule leaves (R17, R33), CNT + 1
keeps its low six bits and is 0 (log entry 5). -/
def execBCkhi (b : Byte) (s : State) : Result :=
  ifSelected s 3 b .ckhi (finish none { s with sync := { s.sync with ckhi := b, cnt := s.sync.cnt + 1 } })

/-- B.CKLO_OK: the frame completes and is published, `CKRX <- (CKHI << 8) | b; CNT <- CNT + 1; ST <- 4; raise FRAME_OK` (R74). -/
def execBCkloOk (b : Byte) (s : State) : Result :=
  ifSelected s 3 b .ckloOk
    (if s.sync.len.toNat - 2 ≤ Config.dataMax then
      finish (some .frameOk)
        { publish s with
          sync := { s.sync with ckrx := joinBytes s.sync.ckhi b, cnt := s.sync.cnt + 1, st := 4 } }
    else .fault .noSuchByte)

/-- B.CKLO_BAD: the frame is discarded, `CKRX <- (CKHI << 8) | b; CNT <- CNT + 1; ST <- 5; raise ERR_CKSUM` (R75).
DESIGN CHOICE: with LEN = 64 and CNT = 63, which no rule leaves (R17, R33), CNT + 1 keeps its low six bits and is 0 (log entry 5). -/
def execBCkloBad (b : Byte) (s : State) : Result :=
  ifSelected s 3 b .ckloBad
    (finish (some .errCksum)
      { s with sync := { s.sync with ckrx := joinBytes s.sync.ckhi b, cnt := s.sync.cnt + 1, st := 5 } })

end Sys2Proof.Machine
end

