-- ==== Sys2Proof/Machine/Control.lean ====
section
/-! DEFINITION. The synchronizer's operations: RESET (R112), CLEAR (R77), PUSH (R65), IDLE (R78), and ST.ILLEGAL (R76). -/

namespace Sys2Proof.Machine

/-- RESET: every register takes its reset value; ABUF and FBUF are unspecified, so a fresh draw stands for their bytes; the
build-time parameters are unaffected (R112). -/
def execReset (s : State) : Result :=
  .next
    { State.reset with
      params := s.params
      inputs := s.inputs
      abufDraw := s.abufDraw + 1
      fbufDraw := s.fbufDraw + 1 }

/-- CLEAR: `ST <- 0; CNT <- 0`, no event, an illegal ST included (R77, R104). -/
def execClear (s : State) : Result := finish none { s with sync := { s.sync with st := 0, cnt := 0 } }

/-- ST.ILLEGAL: recovery from ST = 6 or 7; the byte is dropped (R76). -/
def execStIllegal (low : BitVec 1) (b : Byte) (s : State) : Result :=
  ifSelected s (illegalState low) b .illegal (.next (noDecode (recoverSt s)))

/-- The rule of a byte class, at the state and the byte of this edge. -/
def performClass (k : ByteClass) (b : Byte) (s : State) : Result :=
  match k with
  | .hdr1 => execBHdr1 s
  | .hdr1Resident => execBHdr1Resident (sbLow (sbWord s.sync.st b)) s
  | .noise => execBNoise b s
  | .noiseResident => execBNoiseResident (sbLow (sbWord s.sync.st b)) b s
  | .hdr2 => execBHdr2 s
  | .rehunt => execBRehunt s
  | .resync => execBResync b s
  | .lenOk => execBLenOk b s
  | .lenErr => execBLenErr b s
  | .data => execBData b s
  | .ckhi => execBCkhi b s
  | .ckloOk => execBCkloOk b s
  | .ckloBad => execBCkloBad b s
  | .illegal => execStIllegal (sbLow (sbWord s.sync.st b)) b s

/-- PUSH: `perform rule_of(class(ST, b, CNT, LEN, SUM, CKHI))` (R65). With ST in {6, 7} the edge is R76 instead. -/
def execPush (b : Byte) (s : State) : Result :=
  match classify (classCtx s) s.sync.st b with
  | some k => performClass k b s
  | none => .fault .noByteClass

/-- IDLE: only `EV_STB <- 0` and `MR_STB <- 0` (R78). With ST in {6, 7} the edge is R76 instead. -/
def execIdle (s : State) : Result := .next (noDecode (idleSync s))

end Sys2Proof.Machine
end

