-- ==== Sys2Proof/Machine/Measure.lean ====
section
/-! DEFINITION. The measurement extractor and lookup engine: DECODE (R82 to R98). -/

namespace Sys2Proof.Machine

/-- The decode errors (R102). -/
inductive DecodeError where
  | input | mode | parse | unit
  deriving DecidableEq, Repr

/-- The MR_ERR code (R29, R102). -/
def decodeErrorCode : DecodeError → BitVec 3
  | .input => 1
  | .mode => 2
  | .parse => 3
  | .unit => 4

/-- `input_ok()` (R83). -/
def inputOk (s : State) : Bool := s.frame.fvalid && s.frame.flen == 14

/-- The field registers of a successful decode (R84 to R96). -/
def fieldsOf (d : Nat → Byte) (k : MeasClass) (v : Decimal) (stripped : Bool) : Fields where
  modeIdx := d 0
  range := d 1
  disp := displayOf d
  cls := classCode k
  neg := v.neg
  mant := BitVec.ofNat 24 v.mant
  exp := BitVec.ofInt 5 v.exp
  strip := stripped
  progress := progressOf (d 9) (d 10)
  flags := flagsOf (d 11) (d 12) (d 13)

/-- Steps 1 to 7 of R82 on the payload bytes `d`; the first failing step gives the error (R105). -/
def decodePayload (p : Params) (d : Nat → Byte) : Except DecodeError Fields :=
  match p.mode (d 0).toNat with
  | none => .error .mode
  | some m =>
    match classifyText (strip (displayOf d).toList) with
    | none => .error .parse
    | some (k, v) =>
      match p.unit m (d 1) with
      | none => .error .unit
      | some u => .ok (fieldsOf d k (scale p k v u).1 (scale p k v u).2)

/-- `decode()` of R82, on the registers before the edge. -/
def decodeFrame (s : State) : Except DecodeError Fields :=
  if inputOk s then decodePayload s.params (fbufByte s) else .error .input

/-- The result write of R97, with `MR_STB <- 1` (R82). -/
def writeResult (fseq : BitVec 8) : Except DecodeError Fields → Meas
  | .ok f => { valid := true, err := 0, stb := true, fseq := fseq, fields := f }
  | .error e => { valid := false, err := decodeErrorCode e, stb := true, fseq := fseq, fields := Fields.zero }

/-- The MR registers after a DECODE edge. -/
def decodedMeas (s : State) : Meas := writeResult s.frame.fseq (decodeFrame s)

/-- DECODE on an edge with no CLEAR and no byte: the synchronizer does what IDLE does, the recovery of R76 included (R59, R82). -/
def execDecode (s : State) : Result := .next { idleSync s with meas := decodedMeas s }

end Sys2Proof.Machine
end

