-- ==== Sys2Proof/Machine/Dispatch.lean ====
section
/-! DEFINITION. The dispatcher: one meaning for each constructor of `Instr`. -/

namespace Sys2Proof.Machine

/-- The effect of one operation, as an edge of its own. -/
def exec (i : Instr) (s : State) : Host.Outcome State Fault Refusal :=
  match i with
  | .reset => Sys2Proof.Machine.execReset s
  | .clear => Sys2Proof.Machine.execClear s
  | .push b => Sys2Proof.Machine.execPush b s
  | .decode => Sys2Proof.Machine.execDecode s
  | .idle => Sys2Proof.Machine.execIdle s
  | .bHdr1 => Sys2Proof.Machine.execBHdr1 s
  | .bHdr1Resident low => Sys2Proof.Machine.execBHdr1Resident low s
  | .bNoise b => Sys2Proof.Machine.execBNoise b s
  | .bNoiseResident low b => Sys2Proof.Machine.execBNoiseResident low b s
  | .bHdr2 => Sys2Proof.Machine.execBHdr2 s
  | .bRehunt => Sys2Proof.Machine.execBRehunt s
  | .bResync b => Sys2Proof.Machine.execBResync b s
  | .bLenOk b => Sys2Proof.Machine.execBLenOk b s
  | .bLenErr b => Sys2Proof.Machine.execBLenErr b s
  | .bData b => Sys2Proof.Machine.execBData b s
  | .bCkhi b => Sys2Proof.Machine.execBCkhi b s
  | .bCkloOk b => Sys2Proof.Machine.execBCkloOk b s
  | .bCkloBad b => Sys2Proof.Machine.execBCkloBad b s
  | .stIllegal low b => Sys2Proof.Machine.execStIllegal low b s

end Sys2Proof.Machine
end

