-- ==== Sys2Proof/Machine/Step.lean ====
section
/-! DEFINITION. One step: one rising edge of `clk` (R13). -/

namespace Sys2Proof.Machine

/-- One step: sample the host's next edge and perform the operations its word selects (R10, R13, R59). -/
def step (s : State) : Host.Outcome State Fault Refusal :=
  performOps exec (decodeEdge (nextEdge s)) (takeEdge s)

/-- The table word `w` placed so that the very next step runs it. An operation word becomes the host's next edge, with 0 on
`in_byte`. A byte-class word is an edge that PUSHes its byte, with ST at the word's state; its row's conditions are set as
`decodeTableWord` reads them: LEN = 3 and CNT = 0 in READ_BODY, H2_REHUNT = true for 0x1AB (log entry 6). -/
def State.withFetchWord (s : State) (nbits w : Nat) : State :=
  match tableEnc nbits w with
  | .ok (.op opw b) => { s with inputs := { opw := opw, inByte := b } :: s.inputs }
  | .ok (.sb x) =>
    { s with
      sync :=
        { s.sync with
          st := sbState x
          len := if sbState x = 3 then 3 else s.sync.len
          cnt := if sbState x = 3 then 0 else s.sync.cnt }
      params := { s.params with h2Rehunt := if x = 0x1AB then true else s.params.h2Rehunt }
      inputs := { opw := 0b0001, inByte := sbByte x } :: s.inputs }
  | .error _ => s

end Sys2Proof.Machine
end

