-- ==== Sys2Proof/Safety.lean ====
section
/-! DEFINITION. What holds in every state that a run from a RESET edge reaches: the value ranges and meanings that
spec/10_state.md gives the registers, and the canonical form of the buffers. A safe run keeps them and never stops. -/

namespace Sys2Proof.Machine

/-- How many bytes of the frame in progress ABUF holds: the data bytes among the CNT body bytes (R17, R21). -/
def dataCount (s : State) : Nat := min s.sync.cnt.toNat (s.sync.len.toNat - 2)

/-- READ_BODY: LEN is legal, CNT < LEN (R60), the data bytes accepted so far stand in ABUF (R43), and SUM is the sum of the
header, the length byte and those data bytes (R18). -/
structure BodyInv (s : State) : Prop where
  len_ge  : 3 ≤ s.sync.len.toNat
  len_le  : s.sync.len.toNat ≤ 60
  cnt_lt  : s.sync.cnt.toNat < s.sync.len.toNat
  written : ∀ i < dataCount s, (s.sync.abuf.lookup i).isSome
  sum_eq  : s.sync.sum = cks s.sync.len ((List.range (dataCount s)).map (abufByte s))

/-- The synchronizer: ST is a state that some rule writes (R15), CNT is 0..60 (R17), ABUF is in canonical form. -/
structure SyncInv (s : State) : Prop where
  st_legal : s.sync.st.toNat ≤ 5
  cnt_le   : s.sync.cnt.toNat ≤ 60
  abuf_wf  : Memory.wf s.sync.abuf
  body     : s.sync.st = 3 → BodyInv s

/-- The frame output: FLEN is 1..58 with a frame and 0 without (R23, R24); FBUF is in canonical form and holds exactly the bytes
0..FLEN-1 (R22). -/
structure FrameInv (s : State) : Prop where
  flen_none : s.frame.fvalid = false → s.frame.flen = 0
  flen_ge   : s.frame.fvalid = true → 1 ≤ s.frame.flen.toNat
  flen_le   : s.frame.flen.toNat ≤ 58
  fbuf_wf   : Memory.wf s.frame.fbuf
  fbuf_keys : s.frame.fbuf.map Prod.fst = List.range s.frame.flen.toNat

/-- COMPLETE: CNT = LEN, the received checksum is the computed one, and FBUF holds the frame of LEN - 2 data bytes (R17, R101). -/
structure CompleteInv (s : State) : Prop where
  cnt_eq  : s.sync.cnt.toNat = s.sync.len.toNat
  ckrx_eq : s.sync.ckrx = s.sync.sum
  valid   : s.frame.fvalid = true
  flen_eq : s.frame.flen.toNat + 2 = s.sync.len.toNat

/-- The events: LAST_EV 5..7 are never written (R26), and a strobe shows an event (R27). -/
structure EventInv (s : State) : Prop where
  code_le : s.ev.lastEv.toNat ≤ 4
  strobe  : s.ev.evStb = true → s.ev.lastEv ≠ 0

/-- The measurement result: MR_ERR 5..7 and MR_CLASS 3 are never written (R29, R30), a success has no error and a failure has its
fields 0 (R97), the values lie in their ranges (R30), and the mode and unit of a success are defined (R32). -/
structure MeasInv (s : State) : Prop where
  err_le   : s.meas.err.toNat ≤ 4
  ok_err   : s.meas.valid = true → s.meas.err = 0
  bad_zero : s.meas.valid = false → s.meas.fields = Fields.zero
  cls_ne   : s.meas.fields.cls ≠ 3
  mant_le  : s.meas.fields.mant.toNat ≤ 9999999
  exp_ge   : -15 ≤ s.meas.fields.exp.toInt
  exp_le   : s.meas.fields.exp.toInt ≤ 6
  prog_le  : s.meas.fields.progress.toNat ≤ 2805
  unit_def : s.meas.valid = true → (outUnitRes s).isSome
  ncv_ord  : s.meas.fields.cls = 2 → s.meas.fields.mant.toNat ≤ 5

/-- What every state reached from a RESET edge satisfies, for tables that meet R7. -/
structure State.Inv (s : State) : Prop where
  legal    : s.params.legal = true
  sync     : SyncInv s
  frame    : FrameInv s
  complete : s.sync.st = 4 → CompleteInv s
  events   : EventInv s
  meas     : MeasInv s

/-- The state after an edge without DECODE that raises no event: the synchronizer registers are `y`, EV_STB and MR_STB are 0, all
else is as before (R10, R78, R100). -/
def noEvent (s : State) (y : Sync) : State :=
  { s with sync := y, ev := { s.ev with evStb := false }, meas := { s.meas with stb := false } }

/-- The state after an edge without DECODE that raises an error event: the synchronizer registers are `y`, LAST_EV is the code,
EV_STB is 1, ESEQ counts one more, MR_STB is 0, all else is as before (R10, R100). -/
def errorEvent (s : State) (y : Sync) (code : BitVec 3) : State :=
  { s with
    sync := y
    ev := { lastEv := code, evStb := true, eseq := s.ev.eseq + 1 }
    meas := { s.meas with stb := false } }

/-- The edges of `PUSH x y z …`: one per byte, OPW = 0001 (R62). -/
def pushEdges (bs : List Byte) : List Edge := bs.map fun b => { opw := 0b0001, inByte := b }

/-- The bytes that a list of edges without RESET and CLEAR presents: `in_byte` where `in_valid` is 1 (R14, R59). -/
def presentedBytes (es : List Edge) : List Byte := (es.filter Edge.inValid).map Edge.inByte

/-- The bytes of a wire frame: header, length byte, data, checksum high and low (R49). -/
def frameBytes (len : Byte) (d : List Byte) (ch cl : Byte) : List Byte := 0xAB :: 0xCD :: len :: (d ++ [ch, cl])

end Sys2Proof.Machine
end

