-- ==== Sys2Proof/Certificates/Slice0/Obligations.lean ====
section
/-! DEFINITION. The statements about FSME, for the provers. -/

open Sys2Proof Sys2Proof.Machine

/-! ## The operations -/

/-- R112: RESET answers a state with every register at its reset value, the build-time parameters unaffected; the edge is RESET
whenever rst = 1, whatever clr, dec_start, in_valid and in_byte are. Nothing is said of ABUF and FBUF, which R112 leaves
unspecified. -/
def Obligations.ResetSetsEveryRegister : Prop :=
  (∀ s : State, ∃ t, exec .reset s = .next t
    ∧ t.sync.st = 0 ∧ t.sync.len = 0 ∧ t.sync.cnt = 0 ∧ t.sync.sum = 0 ∧ t.sync.ckhi = 0 ∧ t.sync.ckrx = 0
    ∧ t.frame.flen = 0 ∧ t.frame.fvalid = false ∧ t.frame.fseq = 0
    ∧ t.ev.lastEv = 0 ∧ t.ev.evStb = false ∧ t.ev.eseq = 0
    ∧ t.meas.valid = false ∧ t.meas.err = 0 ∧ t.meas.stb = false ∧ t.meas.fseq = 0
    ∧ t.meas.fields.modeIdx = 0 ∧ t.meas.fields.range = 0 ∧ (∀ j : Fin 7, t.meas.fields.disp[j] = 0)
    ∧ t.meas.fields.cls = 0 ∧ t.meas.fields.neg = false ∧ t.meas.fields.mant = 0 ∧ t.meas.fields.exp = 0
    ∧ t.meas.fields.strip = false ∧ t.meas.fields.progress = 0 ∧ t.meas.fields.flags = 0
    ∧ t.params = s.params ∧ t.inputs = s.inputs)
  ∧ ∀ s : State, (nextEdge s).opw.getLsbD 3 = true → step s = exec .reset (takeEdge s)

/-- R77: CLEAR sets ST and CNT to 0 and EV_STB to 0 and leaves every other register of the synchronizer, an illegal ST included; a
byte presented with it is dropped, and a DECODE on the same edge runs. -/
def Obligations.ClearAbandonsTheFrame : Prop :=
  (∀ s : State, exec .clear s = .next (noEvent s { s.sync with st := 0, cnt := 0 }))
  ∧ (∀ s : State, (nextEdge s).opw.getLsbD 3 = false → (nextEdge s).opw.getLsbD 2 = true →
      (nextEdge s).opw.getLsbD 1 = false → step s = exec .clear (takeEdge s))
  ∧ ∀ s : State, (nextEdge s).opw.getLsbD 3 = false → (nextEdge s).opw.getLsbD 2 = true →
      (nextEdge s).opw.getLsbD 1 = true →
      ∃ u, exec .decode (takeEdge s) = .next u
        ∧ step s = .next { noEvent (takeEdge s) { s.sync with st := 0, cnt := 0 } with meas := u.meas }

/-- R78: IDLE with ST not in {6, 7} changes nothing but EV_STB and MR_STB, which go to 0. -/
def Obligations.IdleChangesOnlyTheStrobes : Prop :=
  ∀ s : State, s.sync.st ≠ 6 → s.sync.st ≠ 7 → exec .idle s = .next (noEvent s s.sync)

/-- R65: PUSH performs the rule of the one class that R60 selects; derived, since the class is the model's decoder's. The classes'
own statements say what each rule does. -/
def Obligations.PushPerformsTheSelectedClass : Prop :=
  ∀ (s : State) (b : Byte) (i : Instr), decode (classCtx s) (.sb (sbWord s.sync.st b)) = .ok i →
    exec (.push b) s = exec i s

/-- R76: with ST in {6, 7} an edge with a byte, one without, and the ST.ILLEGAL row itself set ST to 5 and raise ERR_STATE; the byte
is dropped and every other synchronizer register keeps its value. So does every edge with rst = 0 and clr = 0, with or without
DECODE, the MR registers apart. -/
def Obligations.IllegalStateRecovers : Prop :=
  ∀ (s : State) (low : BitVec 1) (b : Byte), s.sync.st = 6 + low.setWidth 3 →
    exec (.stIllegal low b) s = .next (errorEvent s { s.sync with st := 5 } 4)
    ∧ exec (.push b) s = .next (errorEvent s { s.sync with st := 5 } 4)
    ∧ exec .idle s = .next (errorEvent s { s.sync with st := 5 } 4)
    ∧ ((nextEdge s).opw.getLsbD 3 = false → (nextEdge s).opw.getLsbD 2 = false →
        ∃ t, step s = .next t ∧ t = { errorEvent (takeEdge s) { s.sync with st := 5 } 4 with meas := t.meas })

/-! ## The byte classes -/

/-- R66: 0xAB in AWAIT_HDR1, COMPLETE or ERROR sets ST to 1; nothing else changes and no event is raised. -/
def Obligations.FirstHeaderByte : Prop :=
  (∀ s : State, s.sync.st = 0 →
    exec .bHdr1 s = .next (noEvent s { s.sync with st := 1 })
    ∧ exec (.push 0xAB) s = .next (noEvent s { s.sync with st := 1 }))
  ∧ ∀ (s : State) (low : BitVec 1), s.sync.st = 4 + low.setWidth 3 →
    exec (.bHdr1Resident low) s = .next (noEvent s { s.sync with st := 1 })
    ∧ exec (.push 0xAB) s = .next (noEvent s { s.sync with st := 1 })

/-- R67: any other byte in AWAIT_HDR1, COMPLETE or ERROR sets ST to 0; nothing else changes and no event is raised. -/
def Obligations.HeaderSearchNoise : Prop :=
  (∀ (s : State) (b : Byte), s.sync.st = 0 → b ≠ 0xAB →
    exec (.bNoise b) s = .next (noEvent s { s.sync with st := 0 })
    ∧ exec (.push b) s = .next (noEvent s { s.sync with st := 0 }))
  ∧ ∀ (s : State) (low : BitVec 1) (b : Byte), s.sync.st = 4 + low.setWidth 3 → b ≠ 0xAB →
    exec (.bNoiseResident low b) s = .next (noEvent s { s.sync with st := 0 })
    ∧ exec (.push b) s = .next (noEvent s { s.sync with st := 0 })

/-- R68: 0xCD in AWAIT_HDR2 sets ST to 2. -/
def Obligations.SecondHeaderByte : Prop :=
  ∀ s : State, s.sync.st = 1 →
    exec .bHdr2 s = .next (noEvent s { s.sync with st := 2 })
    ∧ exec (.push 0xCD) s = .next (noEvent s { s.sync with st := 2 })

/-- R69: a wrong second header byte: 0xAB with H2_REHUNT keeps ST = 1, every other one sets ST to 0, silently. -/
def Obligations.WrongSecondHeaderByte : Prop :=
  (∀ s : State, s.sync.st = 1 → s.params.h2Rehunt = true →
    exec .bRehunt s = .next (noEvent s { s.sync with st := 1 })
    ∧ exec (.push 0xAB) s = .next (noEvent s { s.sync with st := 1 }))
  ∧ ∀ (s : State) (b : Byte), s.sync.st = 1 → b ≠ 0xCD → ¬ (b = 0xAB ∧ s.params.h2Rehunt = true) →
    exec (.bResync b) s = .next (noEvent s { s.sync with st := 0 })
    ∧ exec (.push b) s = .next (noEvent s { s.sync with st := 0 })

/-- R70: an accepted length byte. -/
def Obligations.LengthByteAccepted : Prop :=
  ∀ (s : State) (b : Byte), s.sync.st = 2 → 3 ≤ b.toNat → b.toNat ≤ 60 →
    exec (.bLenOk b) s
        = .next (noEvent s { s.sync with len := b, cnt := 0, sum := BitVec.ofNat 16 (0xAB + 0xCD + b.toNat), st := 3 })
    ∧ exec (.push b) s = exec (.bLenOk b) s

/-- R71: a rejected length byte: LEN holds it, ST is ERROR, ERR_LEN is raised; CNT, SUM and the frame are unchanged. -/
def Obligations.LengthByteRejected : Prop :=
  ∀ (s : State) (b : Byte), s.sync.st = 2 → (b.toNat < 3 ∨ 60 < b.toNat) →
    exec (.bLenErr b) s = .next (errorEvent s { s.sync with len := b, st := 5 } 2)
    ∧ exec (.push b) s = .next (errorEvent s { s.sync with len := b, st := 5 } 2)

/-- R72: a data byte: ABUF[CNT] holds it and every other byte of ABUF is as before, SUM adds it modulo 65536, CNT goes up by 1, and
nothing else changes, every byte of FBUF included. -/
def Obligations.DataByteAccumulates : Prop :=
  ∀ (s : State) (b : Byte), s.sync.st = 3 → s.sync.cnt.toNat + 2 < s.sync.len.toNat → s.sync.len.toNat ≤ 60 →
    ∃ t, exec (.bData b) s = .next t ∧ exec (.push b) s = .next t
      ∧ t = noEvent s
          { s.sync with
            abuf := t.sync.abuf
            sum := BitVec.ofNat 16 (s.sync.sum.toNat + b.toNat)
            cnt := BitVec.ofNat 6 (s.sync.cnt.toNat + 1) }
      ∧ abufByte t s.sync.cnt.toNat = b
      ∧ (∀ i, i ≠ s.sync.cnt.toNat → abufByte t i = abufByte s i)
      ∧ ∀ i, hostReadFbuf t i = hostReadFbuf s i

/-- R73: the checksum's high byte goes to CKHI and CNT goes up by 1; SUM and all else are unchanged. A LEN above 60, which no
rule leaves in READ_BODY, is UnreachableBodyGoesOn's. -/
def Obligations.ChecksumHighByteHeld : Prop :=
  ∀ (s : State) (b : Byte), s.sync.st = 3 → s.sync.len.toNat ≤ 60 → s.sync.cnt.toNat + 2 = s.sync.len.toNat →
    exec (.bCkhi b) s = .next (noEvent s { s.sync with ckhi := b, cnt := s.sync.cnt + 1 })
    ∧ exec (.push b) s = .next (noEvent s { s.sync with ckhi := b, cnt := s.sync.cnt + 1 })

/-- R74: the matching low byte: the frame completes. CKRX, CNT, FLEN, FVALID, FSEQ, ST and the event registers take their values,
FBUF[0..LEN-3] are ABUF's bytes, and ABUF, LEN, SUM, CKHI, ESEQ and the MR registers but MR_STB are unchanged. -/
def Obligations.MatchingChecksumPublishes : Prop :=
  ∀ (s : State) (b : Byte), s.sync.st = 3 → 3 ≤ s.sync.len.toNat → s.sync.len.toNat ≤ 60 →
    s.sync.cnt.toNat + 1 = s.sync.len.toNat → s.sync.sum.toNat = 256 * s.sync.ckhi.toNat + b.toNat →
    ∃ t, exec (.bCkloOk b) s = .next t ∧ exec (.push b) s = .next t
      ∧ t.sync = { s.sync with
          ckrx := BitVec.ofNat 16 (256 * s.sync.ckhi.toNat + b.toNat), cnt := s.sync.cnt + 1, st := 4 }
      ∧ t.sync.cnt.toNat = s.sync.len.toNat
      ∧ t.frame.flen.toNat = s.sync.len.toNat - 2 ∧ t.frame.fvalid = true ∧ t.frame.fseq = s.frame.fseq + 1
      ∧ (∀ i, i < s.sync.len.toNat - 2 → hostReadFbuf t i = some (abufByte s i))
      ∧ (∀ i, abufByte t i = abufByte s i)
      ∧ t.ev = { lastEv := 1, evStb := true, eseq := s.ev.eseq }
      ∧ t.meas = { s.meas with stb := false } ∧ t.params = s.params ∧ t.inputs = s.inputs

/-- R75: the low byte that does not match: ST is ERROR, ERR_CKSUM is raised, CKRX holds the received value and SUM the computed one;
FBUF, FLEN, FVALID and FSEQ are unchanged. A LEN above 60, which no rule leaves in READ_BODY, is UnreachableBodyGoesOn's. -/
def Obligations.MismatchingChecksumDiscards : Prop :=
  ∀ (s : State) (b : Byte), s.sync.st = 3 → s.sync.len.toNat ≤ 60 → s.sync.cnt.toNat + 1 = s.sync.len.toNat →
    s.sync.sum.toNat ≠ 256 * s.sync.ckhi.toNat + b.toNat →
    exec (.bCkloBad b) s = .next (errorEvent s
        { s.sync with
          ckrx := BitVec.ofNat 16 (256 * s.sync.ckhi.toNat + b.toNat), cnt := s.sync.cnt + 1, st := 5 } 3)
    ∧ exec (.push b) s = exec (.bCkloBad b) s

/-- A byte-class row asked for in a state whose word it is not, or whose conditions it does not meet, stops by name (log entry 7, the
model's own choice: no edge of the hardware performs it there). -/
def Obligations.UnselectedRowIsRefused : Prop :=
  ∀ (s : State) (i : Instr) (w : BitVec 11), encode i = .sb w →
    (sbState w ≠ s.sync.st ∨ decode (classCtx s) (.sb w) ≠ .ok i) → exec i s = .refused .classNotSelected

/-- Where READ_BODY holds values that no rule leaves (R60, R36; log entry 5, the model's own choice), three cases stop by name: PUSH
with CNT >= LEN, where no row matches; B.DATA, and PUSH performing it, at CNT 58 or above, which is no index of ABUF; and
B.CKLO_OK, and PUSH performing it, with LEN above 60, whose copy would leave FBUF. The other cases go on
(UnreachableBodyGoesOn). -/
def Obligations.UnreachableBodyStops : Prop :=
  (∀ (s : State) (b : Byte), s.sync.st = 3 → s.sync.len.toNat ≤ s.sync.cnt.toNat →
    exec (.push b) s = .fault .noByteClass)
  ∧ (∀ (s : State) (b : Byte), s.sync.st = 3 → 58 ≤ s.sync.cnt.toNat →
    s.sync.cnt.toNat + 2 < s.sync.len.toNat →
    exec (.bData b) s = .fault .noSuchByte ∧ exec (.push b) s = .fault .noSuchByte)
  ∧ ∀ (s : State) (b : Byte), s.sync.st = 3 → 60 < s.sync.len.toNat → s.sync.cnt.toNat + 1 = s.sync.len.toNat →
    s.sync.sum.toNat = 256 * s.sync.ckhi.toNat + b.toNat →
    exec (.bCkloOk b) s = .fault .noSuchByte ∧ exec (.push b) s = .fault .noSuchByte

/-- Where READ_BODY holds a LEN that no rule leaves and a row still holds, its rule is performed (log entry 5, the model's own
choice). With LEN above 60: B.DATA below index 58 writes its byte, and B.CKHI and B.CKLO_BAD count CNT in six bits, so that 63
goes to 0. With LEN 1 or 2: B.CKLO_OK publishes a frame whose FLEN is the low six bits of LEN - 2. -/
def Obligations.UnreachableBodyGoesOn : Prop :=
  (∀ (s : State) (b : Byte), s.sync.st = 3 → 60 < s.sync.len.toNat →
    (s.sync.cnt.toNat < 58 →
      ∃ t, exec (.bData b) s = .next t ∧ exec (.push b) s = .next t
        ∧ t = noEvent s
            { s.sync with abuf := t.sync.abuf, sum := s.sync.sum + b.setWidth 16, cnt := s.sync.cnt + 1 }
        ∧ abufByte t s.sync.cnt.toNat = b ∧ ∀ i, i ≠ s.sync.cnt.toNat → abufByte t i = abufByte s i)
    ∧ (s.sync.cnt.toNat + 2 = s.sync.len.toNat →
        exec (.bCkhi b) s
            = .next (noEvent s { s.sync with ckhi := b, cnt := BitVec.ofNat 6 ((s.sync.cnt.toNat + 1) % 64) })
        ∧ exec (.push b) s = exec (.bCkhi b) s)
    ∧ (s.sync.cnt.toNat + 1 = s.sync.len.toNat → s.sync.sum.toNat ≠ 256 * s.sync.ckhi.toNat + b.toNat →
        exec (.bCkloBad b) s = .next (errorEvent s
            { s.sync with
              ckrx := BitVec.ofNat 16 (256 * s.sync.ckhi.toNat + b.toNat)
              cnt := BitVec.ofNat 6 ((s.sync.cnt.toNat + 1) % 64)
              st := 5 } 3)
        ∧ exec (.push b) s = exec (.bCkloBad b) s))
  ∧ ∀ (s : State) (b : Byte), s.sync.st = 3 → s.sync.len = 1 ∨ s.sync.len = 2 →
    s.sync.cnt.toNat + 1 = s.sync.len.toNat → s.sync.sum.toNat = 256 * s.sync.ckhi.toNat + b.toNat →
    ∃ t, exec (.bCkloOk b) s = .next t ∧ exec (.push b) s = .next t
      ∧ t.frame.flen = (s.sync.len - 2).setWidth 6 ∧ t.frame.fvalid = true ∧ t.frame.fseq = s.frame.fseq + 1
      ∧ t.ev.lastEv = 1 ∧ t.ev.evStb = true

/-- The frame of every operation that stores nothing: no byte of ABUF or FBUF changes (R10, R40). -/
def Obligations.StoringNothingKeepsTheBuffers : Prop :=
  ∀ (s t : State) (i : Instr), exec i s = .next t →
    (match i with
     | .reset => False
     | .push _ => False
     | .bData _ => False
     | .bCkloOk _ => False
     | _ => True) →
    ∀ a, abufByte t a = abufByte s a ∧ hostReadFbuf t a = hostReadFbuf s a

/-! ## DECODE -/

/-- R82, R97: a DECODE whose steps succeed, with ST legal: the MR registers take the values of the steps and MR_FSEQ the FSEQ before
the edge; EV_STB goes to 0 and nothing else changes. Of an overload no value is stated (log entry 8). -/
def Obligations.DecodeSuccessWritesTheResult : Prop :=
  ∀ (s : State) (m u : String) (k : MeasClass) (v : Decimal), s.sync.st.toNat ≤ 5 →
    s.frame.fvalid = true → s.frame.flen = 14 →
    s.params.mode (fbufByte s 0).toNat = some m →
    classifyText (strip [fbufByte s 2, fbufByte s 3, fbufByte s 4, fbufByte s 5, fbufByte s 6, fbufByte s 7,
      fbufByte s 8]) = some (k, v) →
    s.params.unit m (fbufByte s 1) = some u →
    ∃ t, exec .decode s = .next t
      ∧ t = { s with ev := { s.ev with evStb := false }, meas := t.meas }
      ∧ t.meas.valid = true ∧ t.meas.err = 0 ∧ t.meas.stb = true ∧ t.meas.fseq = s.frame.fseq
      ∧ t.meas.fields.modeIdx = fbufByte s 0 ∧ t.meas.fields.range = fbufByte s 1
      ∧ (∀ j : Fin 7, t.meas.fields.disp[j] = fbufByte s (2 + j))
      ∧ t.meas.fields.cls = (match k with | .num => 0 | .ovl => 1 | .ncv => 2)
      ∧ (k ≠ .ovl → t.meas.fields.neg = v.neg ∧ t.meas.fields.mant = BitVec.ofNat 24 v.mant
          ∧ (∀ e, s.params.exp u = some e →
              t.meas.fields.exp = BitVec.ofInt 5 (v.exp + e) ∧ t.meas.fields.strip = true)
          ∧ (s.params.exp u = none → t.meas.fields.exp = BitVec.ofInt 5 v.exp ∧ t.meas.fields.strip = false))
      ∧ (k = .ovl → t.meas.fields.strip = false)
      ∧ t.meas.fields.progress.toNat = (fbufByte s 9).toNat * 10 + (fbufByte s 10).toNat
      ∧ t.meas.fields.flags = flagsOf (fbufByte s 11) (fbufByte s 12) (fbufByte s 13)

/-- R105, R102: a DECODE fails with the first error that applies, in the order INPUT, MODE, PARSE, UNIT; MR_VALID is 0 and every
field register is 0. With ST legal, ST, FBUF and the event registers but EV_STB are unchanged. -/
def Obligations.DecodeErrorsInStepOrder : Prop :=
  ∀ s : State,
    let failed : BitVec 3 → Meas := fun code =>
      { valid := false, err := code, stb := true, fseq := s.frame.fseq
        fields :=
          { modeIdx := 0, range := 0, disp := Vector.replicate 7 0, cls := 0, neg := false, mant := 0, exp := 0
            strip := false, progress := 0, flags := 0 } }
    let text := strip [fbufByte s 2, fbufByte s 3, fbufByte s 4, fbufByte s 5, fbufByte s 6, fbufByte s 7, fbufByte s 8]
    ∃ t, exec .decode s = .next t
      ∧ (¬ (s.frame.fvalid = true ∧ s.frame.flen = 14) → t.meas = failed 1)
      ∧ (s.frame.fvalid = true → s.frame.flen = 14 →
          (s.params.modeTable.length ≤ (fbufByte s 0).toNat → t.meas = failed 2)
          ∧ ∀ m, s.params.mode (fbufByte s 0).toNat = some m →
              (classifyText text = none → t.meas = failed 3)
              ∧ (classifyText text ≠ none → s.params.unit m (fbufByte s 1) = none → t.meas = failed 4))
      ∧ (s.sync.st.toNat ≤ 5 → t = { s with ev := { s.ev with evStb := false }, meas := t.meas })

/-- R76, R82: with ST in {6, 7} a DECODE edge also recovers the synchronizer, and the MR registers are the same as if ST were
legal. -/
def Obligations.DecodeRunsDuringRecovery : Prop :=
  ∀ (s : State) (low : BitVec 1), s.sync.st = 6 + low.setWidth 3 →
    ∃ t, exec .decode s = .next t
      ∧ t = { errorEvent s { s.sync with st := 5 } 4 with meas := t.meas }
      ∧ ∃ u, exec .decode (setSt 0 s) = .next u ∧ t.meas = u.meas

/-- R56, R57, R88, R89, R90: on a successful DECODE the class and the NCV ordinal are those of the stripped text: overload first, then
NCV, else the text matched the decimal grammar. No value of an overload is stated (93_implementation_defined.md I3). -/
def Obligations.DisplayTextDecidesTheClass : Prop :=
  ∀ s t : State, exec .decode s = .next t → t.meas.valid = true →
    let text := strip [fbufByte s 2, fbufByte s 3, fbufByte s 4, fbufByte s 5, fbufByte s 6, fbufByte s 7, fbufByte s 8]
    let ovl : List (List Byte) :=
      [[0x2E, 0x4F, 0x4C], [0x4F, 0x2E, 0x4C], [0x4F, 0x4C, 0x2E], [0x4F, 0x4C], [0x2D, 0x2E, 0x4F, 0x4C],
       [0x2D, 0x4F, 0x2E, 0x4C], [0x2D, 0x4F, 0x4C, 0x2E], [0x2D, 0x4F, 0x4C]]
    let ncv : List (List Byte × Nat) :=
      [([0x45, 0x46], 0), ([0x2D], 1), ([0x2D, 0x2D], 2), ([0x2D, 0x2D, 0x2D], 3), ([0x2D, 0x2D, 0x2D, 0x2D], 4),
       ([0x2D, 0x2D, 0x2D, 0x2D, 0x2D], 5)]
    (text ∈ ovl → t.meas.fields.cls = 1 ∧ t.meas.fields.strip = false ∧ outNcvOrd t = none)
    ∧ (∀ n, (text, n) ∈ ncv → t.meas.fields.cls = 2 ∧ t.meas.fields.neg = false ∧ outNcvOrd t = some (BitVec.ofNat 24 n))
    ∧ (text ∉ ovl → (∀ n, (text, n) ∉ ncv) →
        t.meas.fields.cls = 0 ∧ ∃ v, parseLiteral text = some v ∧ t.meas.fields.neg = v.neg
          ∧ t.meas.fields.mant = BitVec.ofNat 24 v.mant)

/-- R58: the parser accepts exactly the grammar, with the value the rule gives. -/
def Obligations.ParserIsTheGrammar : Prop :=
  ∀ (text : List Byte) (v : Decimal), parseLiteral text = some v ↔
    ∃ (sign ip fp : List Byte) (point : Bool),
      text = sign ++ (ip ++ if point then 0x2E :: fp else [])
      ∧ (sign = [] ∨ sign = [0x2B] ∨ sign = [0x2D])
      ∧ (∀ b ∈ ip ++ fp, 0x30 ≤ b.toNat ∧ b.toNat ≤ 0x39)
      ∧ (point = false → fp = []) ∧ (ip ≠ [] ∨ (point = true ∧ fp ≠ []))
      ∧ v.neg = decide (sign = [0x2D])
      ∧ v.mant = Nat.ofDigits 10 ((ip ++ fp).reverse.map fun b => b.toNat - 0x30)
      ∧ v.exp = -(fp.length : Int)

/-- R87: strip removes every 0x20, keeps every other byte and their order. -/
def Obligations.StripRemovesExactlySpaces : Prop :=
  strip [] = []
  ∧ (∀ s : List Byte, strip (0x20 :: s) = strip s)
  ∧ (∀ (b : Byte) (s : List Byte), b ≠ 0x20 → strip (b :: s) = b :: strip s)
  ∧ ∀ d : Vector Byte 7, (strip d.toList).length ≤ 7

/-- R92, R30, R32: on a successful DECODE that is no overload, for tables that meet R7, the numeric value of the MR registers is exactly
the text's value times 10^e and the unit loses its first character, where EXP_TABLE has the unit; else both are unchanged. -/
def Obligations.ScalingIsExact : Prop :=
  ∀ (s t : State) (m u : String) (k : MeasClass) (v : Decimal), s.params.legal = true →
    exec .decode s = .next t → t.meas.valid = true →
    s.params.mode (fbufByte s 0).toNat = some m → s.params.unit m (fbufByte s 1) = some u →
    classifyText (strip [fbufByte s 2, fbufByte s 3, fbufByte s 4, fbufByte s 5, fbufByte s 6, fbufByte s 7,
      fbufByte s 8]) = some (k, v) → k ≠ .ovl →
    (∀ e, s.params.exp u = some e →
      outValue t = some (v.value * (10 : ℚ) ^ e) ∧ outUnit t = some (String.ofList (u.toList.drop 1)))
    ∧ (s.params.exp u = none → outValue t = some v.value ∧ outUnit t = some u)

/-- R94, R95, R96, R31: the eleven flags of a successful DECODE, bit by bit. -/
def Obligations.FlagsFromThePayload : Prop :=
  ∀ s t : State, exec .decode s = .next t → t.meas.valid = true →
    t.meas.fields.flags.getLsbD 0 = (fbufByte s 11).getLsbD 0
    ∧ t.meas.fields.flags.getLsbD 1 = (fbufByte s 11).getLsbD 1
    ∧ t.meas.fields.flags.getLsbD 2 = (fbufByte s 11).getLsbD 2
    ∧ t.meas.fields.flags.getLsbD 3 = (fbufByte s 11).getLsbD 3
    ∧ t.meas.fields.flags.getLsbD 4 = (fbufByte s 12).getLsbD 0
    ∧ t.meas.fields.flags.getLsbD 5 = (fbufByte s 12).getLsbD 1
    ∧ t.meas.fields.flags.getLsbD 6 = !(fbufByte s 12).getLsbD 2
    ∧ t.meas.fields.flags.getLsbD 7 = (fbufByte s 13).getLsbD 0
    ∧ t.meas.fields.flags.getLsbD 8 = (fbufByte s 13).getLsbD 1
    ∧ t.meas.fields.flags.getLsbD 9 = (fbufByte s 13).getLsbD 2
    ∧ t.meas.fields.flags.getLsbD 10 = (fbufByte s 13).getLsbD 3

/-- R32: the derived outputs of a successful DECODE are the mode name, the stripped text and the resolved unit of the payload, and
they are undefined without one. -/
def Obligations.DerivedOutputsAreDefined : Prop :=
  (∀ s t : State, exec .decode s = .next t → t.meas.valid = true →
    ∃ m u, s.params.mode (fbufByte s 0).toNat = some m ∧ s.params.unit m (fbufByte s 1) = some u
      ∧ outMode t = some m ∧ outUnitRes t = some u
      ∧ outText t = some (strip [fbufByte s 2, fbufByte s 3, fbufByte s 4, fbufByte s 5, fbufByte s 6, fbufByte s 7,
          fbufByte s 8])
      ∧ outUnit t = some (if t.meas.fields.strip then String.ofList (u.toList.drop 1) else u)
      ∧ t.meas.fields.modeIdx = fbufByte s 0 ∧ t.meas.fields.range = fbufByte s 1
      ∧ (t.meas.fields.cls = 2 → outNcvOrd t = some t.meas.fields.mant ∧ t.meas.fields.mant.toNat ≤ 5))
  ∧ ∀ t : State, t.meas.valid = false →
    outMode t = none ∧ outText t = none ∧ outUnitRes t = none ∧ outUnit t = none ∧ outNcvOrd t = none

/-- R98: the result of DECODE depends on FBUF[0..13], FLEN, FVALID and the three tables alone, MR_FSEQ also on FSEQ; and two DECODEs with one
edge between them that is no RESET and completes no frame give identical MR registers. -/
def Obligations.DecodeIsPure : Prop :=
  (∀ s s' t t' : State, (∀ i, i < 14 → fbufByte s i = fbufByte s' i) → s.frame.flen = s'.frame.flen →
    s.frame.fvalid = s'.frame.fvalid → s.params.modeTable = s'.params.modeTable →
    s.params.unitTable = s'.params.unitTable → s.params.expTable = s'.params.expTable →
    exec .decode s = .next t → exec .decode s' = .next t' → t.meas = { t'.meas with fseq := s.frame.fseq })
  ∧ ∀ s t u v : State, step s = .next t → (nextEdge s).opw.getLsbD 3 = false →
    ¬ (t.ev.evStb = true ∧ t.ev.lastEv = 1) →
    exec .decode s = .next u → exec .decode t = .next v → u.meas = v.meas

/-! ## The checksum -/

/-- R64: for every legal frame the sum is 379..15226, the modulo never takes effect, and the high checksum byte is 0x01..0x3B: one that is not always fails. -/
def Obligations.ChecksumBounds : Prop :=
  ∀ (len : Byte) (d : List Byte), 3 ≤ len.toNat → len.toNat ≤ 60 → d.length + 2 = len.toNat →
    (cks len d).toNat = 0xAB + 0xCD + len.toNat + (d.map BitVec.toNat).sum
    ∧ 379 ≤ (cks len d).toNat ∧ (cks len d).toNat ≤ 15226
    ∧ 1 ≤ (cks len d).toNat / 256 ∧ (cks len d).toNat / 256 ≤ 0x3B
    ∧ ∀ ch cl : Byte, (ch = 0 ∨ 0x3C ≤ ch.toNat) → joinBytes ch cl ≠ cks len d

/-- R37: two checksum bytes are read high byte first. -/
def Obligations.ChecksumIsBigEndian : Prop :=
  ∀ hi lo : Byte, (joinBytes hi lo).toNat = hi.toNat * 256 + lo.toNat

/-! ## One edge -/

/-- A step runs what the next edge's word decodes to (R13, R59): the operation itself, or, where DECODE rides along, both from the same
state before the edge, the MR registers DECODE's and all else the other operation's. The last clause, that a fault of the other
operation is the step's, is no rule of the spec but the model's own choice (log entry 9, with the faults of log entry 5). -/
def Obligations.StepRunsTheDecodedOperations : Prop :=
  ∀ s : State,
    ((decodeEdge (nextEdge s)).alongside = false → step s = exec (decodeEdge (nextEdge s)).main (takeEdge s))
    ∧ ((decodeEdge (nextEdge s)).alongside = true →
        ∃ u, exec .decode (takeEdge s) = .next u
          ∧ (∀ t, exec (decodeEdge (nextEdge s)).main (takeEdge s) = .next t → step s = .next { t with meas := u.meas })
          ∧ ∀ r, exec (decodeEdge (nextEdge s)).main (takeEdge s) = .fault r → step s = .fault r)

/-- R59, R104: which operations an operation word selects, by the table's match and mask. -/
def Obligations.OperationWordSelects : Prop :=
  ∀ (w : BitVec 4) (b : Byte),
    let ops := decodeEdge { opw := w, inByte := b }
    let decodes := ops.alongside = true ∨ ops.main = .decode
    (w &&& 0b1000 = 0b1000 ↔ ops.main = .reset)
    ∧ (w &&& 0b1100 = 0b0100 ↔ ops.main = .clear)
    ∧ (w &&& 0b1101 = 0b0001 ↔ ops.main = .push b)
    ∧ (w &&& 0b1010 = 0b0010 ↔ decodes)
    ∧ (w &&& 0b1111 = 0b0000 ↔ ops.main = .idle)

/-- R116: a DECODE on the edge where a frame completes decodes the frame before it: the MR registers are those of a DECODE of the state
before the edge, MR_FSEQ the old FSEQ, while FSEQ counts the new frame. -/
def Obligations.DecodeOnTheFrameEdgeReadsTheOldFrame : Prop :=
  ∀ s t u : State, step s = .next t → (nextEdge s).opw = 0b0011 → t.ev.evStb = true → t.ev.lastEv = 1 →
    exec .decode (takeEdge s) = .next u →
    t.meas = u.meas ∧ t.meas.fseq = s.frame.fseq ∧ t.frame.fseq = s.frame.fseq + 1 ∧ t.frame.fvalid = true

/-- R40: an edge that is no RESET either leaves every byte of FBUF, FLEN, FVALID and FSEQ alone, or accepts the last body byte of a frame
that passes its checksum and changes them together, FLEN to LEN - 2 (R74) where LEN is at least 3, as every rule leaves it there. -/
def Obligations.FramePublicationIsAtomic : Prop :=
  ∀ s t : State, step s = .next t → (nextEdge s).opw.getLsbD 3 = false →
    (t.frame = s.frame ∧ (∀ i, hostReadFbuf t i = hostReadFbuf s i) ∧ ¬ (t.ev.evStb = true ∧ t.ev.lastEv = 1))
    ∨ (s.sync.st = 3 ∧ s.sync.cnt.toNat + 1 = s.sync.len.toNat
        ∧ s.sync.sum = joinBytes s.sync.ckhi (nextEdge s).inByte
        ∧ t.frame.fvalid = true ∧ t.frame.fseq = s.frame.fseq + 1
        ∧ (3 ≤ s.sync.len.toNat → t.frame.flen.toNat = s.sync.len.toNat - 2
            ∧ ∀ i, i < t.frame.flen.toNat → hostReadFbuf t i = some (abufByte s i))
        ∧ t.ev.evStb = true ∧ t.ev.lastEv = 1)

/-- R41, R82: the MR registers change only at an edge with dec_start (or RESET), all together; at every other edge MR_STB goes to 0 and
the rest keeps its value. -/
def Obligations.ResultPublicationIsAtomic : Prop :=
  ∀ s t : State, step s = .next t → (nextEdge s).opw.getLsbD 3 = false →
    ((nextEdge s).opw.getLsbD 1 = false → t.meas = { s.meas with stb := false })
    ∧ ((nextEdge s).opw.getLsbD 1 = true → t.meas.stb = true ∧ t.meas.fseq = s.frame.fseq
        ∧ ∃ u, exec .decode (takeEdge s) = .next u ∧ t.meas = u.meas)

/-- R100: at every edge with rst = 0, LAST_EV, EV_STB and ESEQ record the event of the edge, or that there was none. -/
def Obligations.EventsAreRecorded : Prop :=
  ∀ s t : State, step s = .next t → (nextEdge s).opw.getLsbD 3 = false →
    (t.ev.evStb = false → t.ev.lastEv = s.ev.lastEv ∧ t.ev.eseq = s.ev.eseq)
    ∧ (t.ev.evStb = true →
        (t.ev.lastEv = 1 ∧ t.ev.eseq = s.ev.eseq)
        ∨ ((t.ev.lastEv = 2 ∨ t.ev.lastEv = 3 ∨ t.ev.lastEv = 4) ∧ t.ev.eseq = s.ev.eseq + 1))

/-- R101: what each event leaves behind. That SUM is cks(L, d) of the bytes accepted holds in states that satisfy the invariant. -/
def Obligations.EventLeavesItsRegisters : Prop :=
  ∀ s t : State, step s = .next t → (nextEdge s).opw.getLsbD 3 = false → t.ev.evStb = true →
    (t.ev.lastEv ≠ 1 → ∀ i, hostReadFbuf t i = hostReadFbuf s i)
    ∧ (t.ev.lastEv = 1 → s.Inv → t.sync.st = 4 ∧ t.sync.len = s.sync.len ∧ t.sync.ckrx = t.sync.sum
      ∧ t.sync.sum = cks t.sync.len ((List.range (t.sync.len.toNat - 2)).map (abufByte t))
      ∧ t.sync.cnt.toNat = t.sync.len.toNat ∧ t.frame.fseq = s.frame.fseq + 1
      ∧ t.frame.fvalid = true ∧ t.frame.flen.toNat = t.sync.len.toNat - 2
      ∧ ∀ i, i < t.sync.len.toNat - 2 → hostReadFbuf t i = some (abufByte t i))
    ∧ (t.ev.lastEv = 2 → t.sync = { s.sync with len := (nextEdge s).inByte, st := 5 } ∧ t.frame = s.frame)
    ∧ (t.ev.lastEv = 3 → s.Inv → t.sync.st = 5 ∧ t.sync.len = s.sync.len ∧ t.sync.ckrx ≠ t.sync.sum
      ∧ t.sync.sum = cks t.sync.len ((List.range (t.sync.len.toNat - 2)).map (abufByte t))
      ∧ t.sync.ckrx = joinBytes s.sync.ckhi (nextEdge s).inByte
      ∧ t.sync.cnt.toNat = t.sync.len.toNat ∧ t.frame = s.frame)
    ∧ (t.ev.lastEv = 4 → t.sync = { s.sync with st := 5 } ∧ t.frame = s.frame)

/-- R48, R46: a step never writes the tables or H2_REHUNT, and takes exactly one edge of the host's (log entry 4). -/
def Obligations.TablesNeverChange : Prop :=
  ∀ s t : State, step s = .next t → t.params = s.params ∧ t.inputs = s.inputs.tail

/-- The synchronizer and the decoder do not see each other (R82, R102): whatever the MR registers hold, an operation other than RESET
and DECODE has the same outcome, with only MR_STB written among them. -/
def Obligations.SynchronizerIgnoresTheResult : Prop :=
  ∀ (i : Instr) (s : State) (m : Meas), i ≠ .reset → i ≠ .decode →
    (∀ t, exec i s = .next t → exec i { s with meas := m } = .next { t with meas := { m with stb := false } })
    ∧ (∀ r, exec i s = .fault r → exec i { s with meas := m } = .fault r)
    ∧ ∀ r, exec i s = .refused r → exec i { s with meas := m } = .refused r

/-! ## Decoding -/

/-- R60: in a legal state, with CNT < LEN in READ_BODY, exactly one row matches, and it is the one whose state, byte and conditions
hold. -/
def Obligations.ExactlyOneByteClass : Prop :=
  ∀ (c : ClassCtx) (st : BitVec 3) (b : Byte), st.toNat ≤ 5 → (st = 3 → c.cnt.toNat < c.len.toNat) →
    ∃ k, classify c st b = some k ∧ ∀ k',
      (match k' with
       | .hdr1 => st = 0 ∧ b = 0xAB
       | .hdr1Resident => (st = 4 ∨ st = 5) ∧ b = 0xAB
       | .noise => st = 0 ∧ b ≠ 0xAB
       | .noiseResident => (st = 4 ∨ st = 5) ∧ b ≠ 0xAB
       | .hdr2 => st = 1 ∧ b = 0xCD
       | .rehunt => st = 1 ∧ b = 0xAB ∧ c.h2Rehunt = true
       | .resync => st = 1 ∧ b ≠ 0xCD ∧ ¬ (b = 0xAB ∧ c.h2Rehunt = true)
       | .lenOk => st = 2 ∧ 3 ≤ b.toNat ∧ b.toNat ≤ 60
       | .lenErr => st = 2 ∧ (b.toNat ≤ 2 ∨ 61 ≤ b.toNat)
       | .data => st = 3 ∧ c.cnt.toNat + 2 < c.len.toNat
       | .ckhi => st = 3 ∧ c.cnt.toNat + 2 = c.len.toNat
       | .ckloOk => st = 3 ∧ c.cnt.toNat + 1 = c.len.toNat ∧ c.sum.toNat = 256 * c.ckhi.toNat + b.toNat
       | .ckloBad => st = 3 ∧ c.cnt.toNat + 1 = c.len.toNat ∧ c.sum.toNat ≠ 256 * c.ckhi.toNat + b.toNat
       | .illegal => False) ↔ k' = k

/-- The encoder's word of every well-formed operation, read under conditions that its row asks for, decodes to that operation, with
every operand. -/
def Obligations.DecodeOfEncode : Prop :=
  ∀ (c : ClassCtx) (i : Instr), i.wf = true → i.fits c = true → decode c (encode i) = .ok i

/-- The other way: what a word decodes to is well-formed, its row's conditions hold, the word lies in the row by the table's match and
mask, and a byte-class word is the encoder's word of what it decodes to, so that no bit of it is dropped. -/
def Obligations.EncodeOfDecode : Prop :=
  ∀ (c : ClassCtx) (w : EncWord) (i : Instr), decode c w = .ok i →
    i.wf = true ∧ i.fits c = true ∧ w.bits &&& i.row.2 = i.row.1 ∧ ∀ x, w = .sb x → encode i = w

/-- Words written out from the opcode table and R59, R60 decode to their operations. The reading of a word with nothing beside it is
the model's own choice (log entry 6): in_byte = 0 with an operation word, 0x1AB as B.REHUNT and so with H2_REHUNT, 0x3FF as B.DATA
and so as the first body byte, and no operation for the words of neither format, 0x800 and 0b10000. -/
def Obligations.TableWordsDecode : Prop :=
  decodeTableWord 8 0b1000 = some .reset ∧ decodeTableWord 8 0b0100 = some .clear
  ∧ decodeTableWord 8 0b0001 = some (.push 0) ∧ decodeTableWord 8 0b0010 = some .decode
  ∧ decodeTableWord 8 0b0000 = some .idle
  ∧ decodeTableWord 16 0x0AB = some .bHdr1 ∧ decodeTableWord 16 0x5AB = some (.bHdr1Resident 1)
  ∧ decodeTableWord 16 0x0CD = some (.bNoise 0xCD) ∧ decodeTableWord 16 0x1CD = some .bHdr2
  ∧ decodeTableWord 16 0x1AB = some .bRehunt ∧ decodeTableWord 16 0x155 = some (.bResync 0x55)
  ∧ decodeTableWord 16 0x23C = some (.bLenOk 60) ∧ decodeTableWord 16 0x23D = some (.bLenErr 61)
  ∧ decodeTableWord 16 0x3FF = some (.bData 0xFF) ∧ decodeTableWord 16 0x755 = some (.stIllegal 1 0x55)
  ∧ decodeTableWord 16 0x800 = none ∧ decodeTableWord 8 0b10000 = none

/-- A table word placed by withFetchWord is what the very next step runs (log entry 6, the model's own way of placing a word); an
operation word whose DECODE rides along with another operation performs both (R59), and is not meant here. -/
def Obligations.PlacedWordRuns : Prop :=
  ∀ (s : State) (nbits w : Nat) (i : Instr), decodeTableWord nbits w = some i →
    (nbits ≤ 8 → i ≠ .decode → w &&& 0b1010 ≠ 0b0010) →
    step (s.withFetchWord nbits w) = exec i (takeEdge (s.withFetchWord nbits w))

/-! ## Whole-machine statements -/

/-- R112: from every state whose tables meet R7, whatever H2_REHUNT is, RESET answers a state that satisfies the invariant, with the
same build-time parameters. State.reset satisfies it too: its parameters are the model's choice, tables that meet R7 by the fallback to
the fixture and H2_REHUNT at its default (log entry 2). -/
def Obligations.ResetMeetsTheInvariant : Prop :=
  State.reset.Inv
  ∧ ∀ s : State, s.params.legal = true → ∃ t, exec .reset s = .next t ∧ t.params = s.params ∧ t.Inv

/-- R15 to R32, R43, R60: from every state that satisfies the invariant, a step leads to one that does: registers keep the value ranges
and meanings the spec gives them. -/
def Obligations.StepKeepsTheInvariant : Prop := ∀ s t : State, s.Inv → step s = .next t → t.Inv

/-- R123: from every state that satisfies the invariant, FSME takes whatever the host drives: no edge stalls, faults or is refused. -/
def Obligations.EveryEdgeIsTaken : Prop := ∀ s : State, s.Inv → ∃ t, step s = .next t

/-- R80: from ST in {0, 4, 5}, edges without RESET and CLEAR whose presented bytes are those of a frame with a legal length, with
any IDLE, DECODE and PUSH with DECODE edges among them, end at the edge of the last byte with FRAME_OK and FBUF the data when the
checksum matches, and with ERR_CKSUM and the frame registers unchanged otherwise; no earlier edge raises an event. -/
def Obligations.FrameAcceptance : Prop :=
  ∀ (s : State) (len ch cl : Byte) (d : List Byte) (es : List Edge) (last : Edge) (rest : List Edge),
    (s.sync.st = 0 ∨ s.sync.st = 4 ∨ s.sync.st = 5) → 3 ≤ len.toNat → len.toNat ≤ 60 → d.length + 2 = len.toNat →
    (∀ e ∈ es ++ [last], e.opw.getLsbD 3 = false ∧ e.opw.getLsbD 2 = false) → last.opw.getLsbD 0 = true →
    presentedBytes (es ++ [last]) = frameBytes len d ch cl → s.inputs = es ++ last :: rest →
    (∀ n, 1 ≤ n → n ≤ es.length → ∃ u : State, Sys2Proof.core.run n s = .next u
      ∧ u.ev = { s.ev with evStb := false } ∧ u.frame = s.frame ∧ ∀ i, hostReadFbuf u i = hostReadFbuf s i)
    ∧ ∃ t : State, Sys2Proof.core.run (es.length + 1) s = .next t ∧ t.inputs = rest
      ∧ (joinBytes ch cl = cks len d →
          t.sync.st = 4 ∧ t.ev = { lastEv := 1, evStb := true, eseq := s.ev.eseq }
          ∧ t.frame.fvalid = true ∧ t.frame.flen.toNat = d.length ∧ t.frame.fseq = s.frame.fseq + 1
          ∧ ∀ i, i < d.length → hostReadFbuf t i = d[i]?)
      ∧ (joinBytes ch cl ≠ cks len d →
          t.sync.st = 5 ∧ t.ev = { lastEv := 3, evStb := true, eseq := s.ev.eseq + 1 }
          ∧ t.frame = s.frame ∧ ∀ i, hostReadFbuf t i = hostReadFbuf s i)

/-- R81: after any event, and after any byte handled as B.NOISE or B.RESYNC, ST is in {0, 4, 5}; from ST = 1 with H2_REHUNT a frame's
two header bytes lead to AWAIT_LEN, as from {0, 4, 5}; from ST = 1 without it they lead back to AWAIT_HDR1, and the frame is lost. -/
def Obligations.HeaderSearchRecovers : Prop :=
  (∀ s t : State, step s = .next t → t.ev.evStb = true → t.sync.st = 4 ∨ t.sync.st = 5)
  ∧ (∀ (s t : State) (low : BitVec 1) (b : Byte),
      exec (.bNoise b) s = .next t ∨ exec (.bNoiseResident low b) s = .next t ∨ exec (.bResync b) s = .next t →
      t.sync.st = 0)
  ∧ ∀ (s : State) (rest : List Edge), s.sync.st = 1 → s.inputs = pushEdges [0xAB, 0xCD] ++ rest →
      ∃ t : State, Sys2Proof.core.run 2 s = .next t ∧ t.ev.evStb = false
        ∧ t.sync.st = if s.params.h2Rehunt then 2 else 0

/-- R79: edges without any operation do not matter: for a state that satisfies the invariant, running a host's edges and running them
with the IDLE edges taken out lead to the same synchronizer, frame, event and result registers, the two strobes apart, and so to the
same bytes FBUF[0..FLEN-1]. The last clause also says that the two runs read the same unspecified bytes FBUF[FLEN..57]: R44 and R79
do not promise that, it is the model's choice of numbered draws (log entry 3). -/
def Obligations.FragmentationDoesNotMatter : Prop :=
  ∀ (s : State) (es : List Edge), s.Inv →
    ∃ t u : State,
      Sys2Proof.core.run es.length { s with inputs := es } = .next t
      ∧ Sys2Proof.core.run (es.filter fun e => e.opw != 0).length
          { s with inputs := es.filter fun e => e.opw != 0 } = .next u
      ∧ t.sync = u.sync ∧ t.frame = u.frame ∧ t.ev.lastEv = u.ev.lastEv ∧ t.ev.eseq = u.ev.eseq
      ∧ { t.meas with stb := false } = { u.meas with stb := false }
      ∧ (∀ i, i < t.frame.flen.toNat → ∃ b, hostReadFbuf t i = some b ∧ hostReadFbuf u i = some b)
      ∧ ∀ i, hostReadFbuf t i = hostReadFbuf u i
end

