-- ==== Sys2Proof/Laws/Decode.lean ====
section
/-! SUPPORT. The fields of SBW, and when R60 selects each row. -/

namespace Sys2Proof

@[simp] theorem sbState_sbWord (st : BitVec 3) (b : Byte) : sbState (sbWord st b) = st := by
  ext i hi
  simp [sbState, sbWord, BitVec.getElem_extractLsb', hi, show 8 + i < 11 by omega]

@[simp] theorem sbByte_sbWord (st : BitVec 3) (b : Byte) : sbByte (sbWord st b) = b := by
  ext i hi
  simp [sbByte, sbWord, BitVec.getElem_extractLsb', hi]
  omega

theorem sbWord_eta (w : BitVec 11) : sbWord (sbState w) (sbByte w) = w := by
  ext i hi
  simp [sbWord, sbState, sbByte]
  by_cases h : i < 8
  · simp [h, ← BitVec.getLsbD_eq_getElem hi]
  · simp [h, show i - 8 < 3 by omega, show 8 + (i - 8) = i by omega, hi]

@[simp] theorem residentState_sbLow {st : BitVec 3} (b : Byte) (h : st = 4 ∨ st = 5) :
    residentState (sbLow (sbWord st b)) = st := by
  have : sbLow (sbWord st b) = st.extractLsb' 0 1 := by
    ext i hi
    simp [sbLow, sbWord, show i = 0 by omega]
  rw [this]
  rcases h with rfl | rfl <;> decide

@[simp] theorem illegalState_sbLow {st : BitVec 3} (b : Byte) (h : st = 6 ∨ st = 7) :
    illegalState (sbLow (sbWord st b)) = st := by
  have : sbLow (sbWord st b) = st.extractLsb' 0 1 := by
    ext i hi
    simp [sbLow, sbWord, show i = 0 by omega]
  rw [this]
  rcases h with rfl | rfl <;> decide

/-- Every 3-bit state is one of the eight. -/
theorem st_cases (st : BitVec 3) :
    st = 0 ∨ st = 1 ∨ st = 2 ∨ st = 3 ∨ st = 4 ∨ st = 5 ∨ st = 6 ∨ st = 7 := by
  revert st; decide

theorem residentState_cases (low : BitVec 1) : residentState low = 4 ∨ residentState low = 5 := by
  revert low; decide

theorem illegalState_cases (low : BitVec 1) : illegalState low = 6 ∨ illegalState low = 7 := by
  revert low; decide

theorem residentState_eq_add (low : BitVec 1) : residentState low = 4 + low.setWidth 3 := by
  revert low; decide

theorem illegalState_eq_add (low : BitVec 1) : illegalState low = 6 + low.setWidth 3 := by
  revert low; decide

@[simp] theorem sbLow_residentState (low : BitVec 1) (b : Byte) : sbLow (sbWord (residentState low) b) = low := by
  ext i hi
  simp [sbLow, sbWord, residentState, show i = 0 by omega]

@[simp] theorem sbLow_illegalState (low : BitVec 1) (b : Byte) : sbLow (sbWord (illegalState low) b) = low := by
  ext i hi
  simp [sbLow, sbWord, illegalState, show i = 0 by omega]

theorem legalLen_iff (b : Byte) : legalLen b = true ↔ 3 ≤ b.toNat ∧ b.toNat ≤ 60 := by
  simp [legalLen]

/-- The checksum bytes are read high byte first (R37). -/
theorem joinBytes_toNat (hi lo : Byte) : (joinBytes hi lo).toNat = hi.toNat * 256 + lo.toNat := by
  have h1 := hi.isLt
  have h2 := lo.isLt
  unfold joinBytes
  rw [BitVec.toNat_or, BitVec.toNat_shiftLeft]
  simp only [BitVec.toNat_setWidth]
  rw [Nat.mod_eq_of_lt (a := hi.toNat) (by omega), Nat.mod_eq_of_lt (a := lo.toNat) (by omega), Nat.shiftLeft_eq,
    Nat.mod_eq_of_lt (by omega), Nat.mul_comm, ← Nat.two_pow_add_eq_or_of_lt (by omega : lo.toNat < 2 ^ 8)]

/-- R60 once and for all: the row `classify` answers, with the state, byte and conditions of that row. -/
theorem classify_spec {c : ClassCtx} {st : BitVec 3} {b : Byte} {k : ByteClass} (h : classify c st b = some k) :
    (k = .hdr1 ∧ st = 0 ∧ b = Config.hdr1)
    ∨ (k = .noise ∧ st = 0 ∧ b ≠ Config.hdr1)
    ∨ (k = .hdr2 ∧ st = 1 ∧ b = Config.hdr2)
    ∨ (k = .rehunt ∧ st = 1 ∧ b = Config.hdr1 ∧ c.h2Rehunt = true)
    ∨ (k = .resync ∧ st = 1 ∧ b ≠ Config.hdr2 ∧ ¬ (b = Config.hdr1 ∧ c.h2Rehunt = true))
    ∨ (k = .lenOk ∧ st = 2 ∧ legalLen b = true)
    ∨ (k = .lenErr ∧ st = 2 ∧ legalLen b = false)
    ∨ (k = .data ∧ st = 3 ∧ c.cnt.toNat + 2 < c.len.toNat)
    ∨ (k = .ckhi ∧ st = 3 ∧ c.cnt.toNat + 2 = c.len.toNat)
    ∨ (k = .ckloOk ∧ st = 3 ∧ c.cnt.toNat + 1 = c.len.toNat ∧ c.sum = joinBytes c.ckhi b)
    ∨ (k = .ckloBad ∧ st = 3 ∧ c.cnt.toNat + 1 = c.len.toNat ∧ c.sum ≠ joinBytes c.ckhi b)
    ∨ (k = .hdr1Resident ∧ (st = 4 ∨ st = 5) ∧ b = Config.hdr1)
    ∨ (k = .noiseResident ∧ (st = 4 ∨ st = 5) ∧ b ≠ Config.hdr1)
    ∨ (k = .illegal ∧ (st = 6 ∨ st = 7)) := by
  rcases st_cases st with rfl | rfl | rfl | rfl | rfl | rfl | rfl | rfl
  · simp only [classify] at h
    simp at h
    split at h <;> simp_all
  · simp only [classify] at h
    simp at h
    split at h
    · simp_all
    · split at h
      · split at h <;> simp_all
      · simp_all
  · simp only [classify] at h
    simp at h
    split at h <;> simp_all
  · simp only [classify, bodyClass] at h
    simp at h
    split at h
    · simp_all
    · split at h
      · simp_all
      · split at h
        · split at h <;> simp_all
        · simp at h
  · simp only [classify] at h
    simp at h
    split at h <;> simp_all
  · simp only [classify] at h
    simp at h
    split at h <;> simp_all
  · simp [classify] at h
    simp [← h]
  · simp [classify] at h
    simp [← h]

end Sys2Proof
end

