-- ==== Sys2Proof/Laws/Memory.lean ====
section
/-! SUPPORT. The laws of the byte buffers: a read after a write, and that every buffer operation keeps the canonical form. -/

namespace Sys2Proof.Machine

@[simp] theorem lookup_write_same (m : Memory) (i : Nat) (v : Byte) : (m.write i v).lookup i = some v := by
  induction m with
  | nil => simp [Memory.write, Memory.lookup]
  | cons c m ih =>
    obtain ⟨a, w⟩ := c
    simp only [Memory.write]
    split
    · simp [Memory.lookup]
    · split
      · simp [Memory.lookup]
      · rename_i h1 h2
        have : ¬ a = i := fun h => h2 h.symm
        simp [Memory.lookup, this, ih]

theorem lookup_write_other (m : Memory) {i j : Nat} (v : Byte) (h : j ≠ i) :
    (m.write i v).lookup j = m.lookup j := by
  have h' : ¬ i = j := fun e => h e.symm
  induction m with
  | nil => simp [Memory.write, Memory.lookup, h']
  | cons c m ih =>
    obtain ⟨a, w⟩ := c
    simp only [Memory.write]
    split
    · simp [Memory.lookup, h']
    · split
      · rename_i h1 h2
        subst h2
        simp [Memory.lookup, h']
      · simp [Memory.lookup, ih]

/-- The indices of a written buffer are those it had and the one written. -/
theorem mem_write {m : Memory} {i : Nat} {v : Byte} {c : Host.Cell} (h : c ∈ m.write i v) : c ∈ m ∨ c = (i, v) := by
  induction m with
  | nil => simpa [Memory.write] using h
  | cons d m ih =>
    obtain ⟨a, w⟩ := d
    simp only [Memory.write] at h
    split at h
    · simp at h ⊢; tauto
    · split at h
      · simp at h ⊢; tauto
      · simp at h ⊢
        rcases h with h | h
        · exact .inl (.inl h)
        · rcases ih h with h | h <;> tauto

/-- A write keeps the canonical form. -/
theorem write_wf {m : Memory} (i : Nat) (v : Byte) (h : m.wf) : (m.write i v).wf := by
  induction m with
  | nil => simp [Memory.write, Memory.wf]
  | cons c m ih =>
    obtain ⟨a, w⟩ := c
    simp only [Memory.wf, List.pairwise_cons] at h
    simp only [Memory.write]
    split
    · rename_i hi
      simp only [Memory.wf, List.pairwise_cons]
      refine ⟨?_, h.1, h.2⟩
      intro b hb
      rcases List.mem_cons.mp hb with rfl | hb
      · exact hi
      · exact Nat.lt_trans hi (h.1 b hb)
    · split
      · rename_i h1 h2
        simp only [Memory.wf, List.pairwise_cons]
        exact ⟨fun b hb => h2 ▸ h.1 b hb, h.2⟩
      · rename_i h1 h2
        simp only [Memory.wf, List.pairwise_cons]
        refine ⟨fun b hb => ?_, ih h.2⟩
        rcases mem_write hb with hb | rfl
        · exact h.1 b hb
        · show a < i
          omega

/-- The cells of a range of indices are in canonical form. -/
theorem abufCells_wf (s : State) (n : Nat) : (abufCells s n).wf := by
  unfold abufCells Memory.wf
  rw [List.pairwise_map]
  exact List.pairwise_lt_range

@[simp] theorem abufCells_keys (s : State) (n : Nat) : (abufCells s n).map Prod.fst = List.range n := by
  simp [abufCells, Function.comp_def]

theorem lookup_map_of_mem (f : Nat → Byte) (l : List Nat) {i : Nat} (h : i ∈ l) :
    Memory.lookup (l.map fun j => (j, f j)) i = some (f i) := by
  induction l with
  | nil => simp at h
  | cons a l ih =>
    by_cases e : a = i
    · subst e; simp [Memory.lookup]
    · have : i ∈ l := by
        rcases List.mem_cons.mp h with h | h
        · exact absurd h.symm e
        · exact h
      simpa [Memory.lookup, e] using ih this

/-- A published byte is the assembled byte (R74). -/
theorem lookup_abufCells (s : State) {n i : Nat} (h : i < n) : (abufCells s n).lookup i = some (abufByte s i) :=
  lookup_map_of_mem (abufByte s) (List.range n) (List.mem_range.mpr h)

/-- Publishing keeps FBUF in canonical form, whatever it held. -/
theorem publish_fbuf_wf (s : State) : (publish s).frame.fbuf.wf := abufCells_wf s _

end Sys2Proof.Machine
end

