-- ==== Sys2Proof/Laws/State.lean ====
section
/-! SUPPORT. What each named update of State leaves in each part of it, so that no proof unfolds a record update. -/

namespace Sys2Proof.Machine

section setSt
variable (v : BitVec 3) (s : State)
@[simp] theorem setSt_sync : (setSt v s).sync = { s.sync with st := v } := rfl
@[simp] theorem setSt_frame : (setSt v s).frame = s.frame := rfl
@[simp] theorem setSt_ev : (setSt v s).ev = s.ev := rfl
@[simp] theorem setSt_meas : (setSt v s).meas = s.meas := rfl
@[simp] theorem setSt_params : (setSt v s).params = s.params := rfl
@[simp] theorem setSt_inputs : (setSt v s).inputs = s.inputs := rfl
@[simp] theorem setSt_abufDraw : (setSt v s).abufDraw = s.abufDraw := rfl
@[simp] theorem setSt_fbufDraw : (setSt v s).fbufDraw = s.fbufDraw := rfl
end setSt

section noDecode
variable (s : State)
@[simp] theorem noDecode_sync : (noDecode s).sync = s.sync := rfl
@[simp] theorem noDecode_frame : (noDecode s).frame = s.frame := rfl
@[simp] theorem noDecode_ev : (noDecode s).ev = s.ev := rfl
@[simp] theorem noDecode_meas : (noDecode s).meas = { s.meas with stb := false } := rfl
@[simp] theorem noDecode_params : (noDecode s).params = s.params := rfl
@[simp] theorem noDecode_inputs : (noDecode s).inputs = s.inputs := rfl
@[simp] theorem noDecode_abufDraw : (noDecode s).abufDraw = s.abufDraw := rfl
@[simp] theorem noDecode_fbufDraw : (noDecode s).fbufDraw = s.fbufDraw := rfl
end noDecode

section recordEvent
variable (e : Option Event) (s : State)

@[simp] theorem recordEvent_sync : (recordEvent e s).sync = s.sync := by
  rcases e with _ | e <;> first | rfl | cases e <;> rfl
@[simp] theorem recordEvent_frame : (recordEvent e s).frame = s.frame := by
  rcases e with _ | e <;> first | rfl | cases e <;> rfl
@[simp] theorem recordEvent_meas : (recordEvent e s).meas = s.meas := by
  rcases e with _ | e <;> first | rfl | cases e <;> rfl
@[simp] theorem recordEvent_params : (recordEvent e s).params = s.params := by
  rcases e with _ | e <;> first | rfl | cases e <;> rfl
@[simp] theorem recordEvent_inputs : (recordEvent e s).inputs = s.inputs := by
  rcases e with _ | e <;> first | rfl | cases e <;> rfl
@[simp] theorem recordEvent_abufDraw : (recordEvent e s).abufDraw = s.abufDraw := by
  rcases e with _ | e <;> first | rfl | cases e <;> rfl
@[simp] theorem recordEvent_fbufDraw : (recordEvent e s).fbufDraw = s.fbufDraw := by
  rcases e with _ | e <;> first | rfl | cases e <;> rfl

@[simp] theorem recordEvent_none_ev : (recordEvent none s).ev = { s.ev with evStb := false } := rfl
@[simp] theorem recordEvent_frameOk_ev :
    (recordEvent (some .frameOk) s).ev = { s.ev with lastEv := 1, evStb := true } := rfl
@[simp] theorem recordEvent_errLen_ev :
    (recordEvent (some .errLen) s).ev = { lastEv := 2, evStb := true, eseq := s.ev.eseq + 1 } := rfl
@[simp] theorem recordEvent_errCksum_ev :
    (recordEvent (some .errCksum) s).ev = { lastEv := 3, evStb := true, eseq := s.ev.eseq + 1 } := rfl
@[simp] theorem recordEvent_errState_ev :
    (recordEvent (some .errState) s).ev = { lastEv := 4, evStb := true, eseq := s.ev.eseq + 1 } := rfl
end recordEvent

section publish
variable (s : State)
@[simp] theorem publish_sync : (publish s).sync = s.sync := rfl
@[simp] theorem publish_frame : (publish s).frame =
    { fbuf := abufCells s (s.sync.len.toNat - 2), flen := (s.sync.len - 2).setWidth 6, fvalid := true,
      fseq := s.frame.fseq + 1 } := rfl
@[simp] theorem publish_ev : (publish s).ev = s.ev := rfl
@[simp] theorem publish_meas : (publish s).meas = s.meas := rfl
@[simp] theorem publish_params : (publish s).params = s.params := rfl
@[simp] theorem publish_inputs : (publish s).inputs = s.inputs := rfl
@[simp] theorem publish_abufDraw : (publish s).abufDraw = s.abufDraw := rfl
@[simp] theorem publish_fbufDraw : (publish s).fbufDraw = s.fbufDraw + 1 := rfl
end publish

section takeEdge
variable (s : State)
@[simp] theorem takeEdge_sync : (takeEdge s).sync = s.sync := rfl
@[simp] theorem takeEdge_frame : (takeEdge s).frame = s.frame := rfl
@[simp] theorem takeEdge_ev : (takeEdge s).ev = s.ev := rfl
@[simp] theorem takeEdge_meas : (takeEdge s).meas = s.meas := rfl
@[simp] theorem takeEdge_params : (takeEdge s).params = s.params := rfl
@[simp] theorem takeEdge_inputs : (takeEdge s).inputs = s.inputs.tail := rfl
@[simp] theorem takeEdge_abufDraw : (takeEdge s).abufDraw = s.abufDraw := rfl
@[simp] theorem takeEdge_fbufDraw : (takeEdge s).fbufDraw = s.fbufDraw := rfl
end takeEdge

section classCtx
variable (s : State)
@[simp] theorem classCtx_h2Rehunt : (classCtx s).h2Rehunt = s.params.h2Rehunt := rfl
@[simp] theorem classCtx_len : (classCtx s).len = s.sync.len := rfl
@[simp] theorem classCtx_cnt : (classCtx s).cnt = s.sync.cnt := rfl
@[simp] theorem classCtx_sum : (classCtx s).sum = s.sync.sum := rfl
@[simp] theorem classCtx_ckhi : (classCtx s).ckhi = s.sync.ckhi := rfl
end classCtx

/-- The recovery from an illegal state, part by part (R76). -/
theorem recoverSt_eq (s : State) :
    recoverSt s = { s with
      sync := { s.sync with st := 5 }
      ev := { lastEv := 4, evStb := true, eseq := s.ev.eseq + 1 } } := rfl

end Sys2Proof.Machine
end

