-- ==== Sys2Proof/Laws/Ops.lean ====
section
/-! SUPPORT. Each shared operation once: what it answers and what it can do. -/

namespace Sys2Proof.Machine

/-- A selected row has its effect. -/
theorem ifSelected_of {s : State} {st : BitVec 3} {b : Byte} {k : ByteClass} (o : Result) (h : s.sync.st = st)
    (hk : classify (classCtx s) st b = some k) : ifSelected s st b k o = o := by
  simp [ifSelected, h, hk]

/-- A row that goes on was selected. -/
theorem ifSelected_next {s t : State} {st : BitVec 3} {b : Byte} {k : ByteClass} {o : Result}
    (h : ifSelected s st b k o = .next t) :
    s.sync.st = st ∧ classify (classCtx s) st b = some k ∧ o = .next t := by
  unfold ifSelected at h
  split at h
  · rename_i hc; exact ⟨hc.1, hc.2, h⟩
  · cases h

theorem finish_next {e : Option Event} {s t : State} (h : finish e s = .next t) : t = noDecode (recordEvent e s) := by
  simpa [finish] using h.symm

/-- DECODE alongside another operation goes on exactly when both do, with DECODE's MR registers. -/
theorem alongside_next {o d : Result} {t : State} (h : alongside o d = .next t) :
    ∃ u v, o = .next u ∧ d = .next v ∧ t = { u with meas := v.meas } := by
  cases o <;> cases d <;> simp [alongside] at h
  exact ⟨_, _, rfl, rfl, h.symm⟩

/-- FLEN of a legal length byte is LEN - 2. -/
theorem flen_toNat {len : BitVec 8} (h3 : 3 ≤ len.toNat) (h60 : len.toNat ≤ 60) :
    ((len - 2).setWidth 6 : BitVec 6).toNat = len.toNat - 2 := by
  have := len.isLt
  simp [BitVec.toNat_sub]
  omega

/-- A published frame is read back byte for byte. -/
theorem fbufByte_published {s t : State} {i : Nat} (hf : t.frame = (publish s).frame) (h3 : 3 ≤ s.sync.len.toNat)
    (h60 : s.sync.len.toNat ≤ 60) (hi : i < s.sync.len.toNat - 2) : fbufByte t i = abufByte s i := by
  have hl := flen_toNat h3 h60
  simp only [fbufByte, hf, publish_frame]
  rw [if_pos (by omega), lookup_abufCells s hi]
  rfl

/-- The host reads a published frame back byte for byte. -/
theorem hostReadFbuf_published {s t : State} {i : Nat} (hf : t.frame = (publish s).frame) (h3 : 3 ≤ s.sync.len.toNat)
    (h60 : s.sync.len.toNat ≤ 60) (hi : i < s.sync.len.toNat - 2) : hostReadFbuf t i = some (abufByte s i) := by
  rw [hostReadFbuf, if_pos (show i < 58 by omega), fbufByte_published hf h3 h60 hi]

/-- PUSH performs the row that R60 selects. -/
theorem execPush_of {s : State} {b : Byte} {k : ByteClass} (h : classify (classCtx s) s.sync.st b = some k) :
    execPush b s = performClass k b s := by
  simp [execPush, h]

/-- The rule of a byte class is the meaning of its operation at the edge's SBW word. -/
theorem performClass_eq_exec (k : ByteClass) (b : Byte) (s : State) :
    performClass k b s = exec (k.toInstr (sbWord s.sync.st b)) s := by
  cases k <;> simp [performClass, ByteClass.toInstr, exec]

/-- PUSH is the operation of the selected row. -/
theorem exec_push_eq {s : State} {b : Byte} {k : ByteClass} (h : classify (classCtx s) s.sync.st b = some k) :
    exec (.push b) s = exec (k.toInstr (sbWord s.sync.st b)) s := by
  rw [← performClass_eq_exec]
  exact execPush_of h

@[simp] theorem illegalSt_iff (s : State) : illegalSt s = true ↔ s.sync.st = 6 ∨ s.sync.st = 7 := by
  simp [illegalSt]

end Sys2Proof.Machine
end

