-- ==== Sys2Proof/Laws/Moves.lean ====
section
/-! SUPPORT. Say once what an edge can do: the moves of the synchronizer, and that `exec` and `step` make no others. -/

namespace Sys2Proof.Machine

/-- The moves of the synchronizer at an edge with rst = 0 and the byte `b` on in_byte, with the conditions under which each is made.
MR_STB goes to 0. -/
inductive SyncMove (s : State) (b : Byte) : State → Prop where
  | clear : SyncMove s b (noDecode (recordEvent none { s with sync := { s.sync with st := 0, cnt := 0 } }))
  | idle : ¬ (s.sync.st = 6 ∨ s.sync.st = 7) → SyncMove s b (noDecode (recordEvent none s))
  | recover : s.sync.st = 6 ∨ s.sync.st = 7 → SyncMove s b (noDecode (recoverSt s))
  | hunt (v : BitVec 3) : v = 0 ∨ v = 1 ∨ v = 2 → SyncMove s b (noDecode (recordEvent none (setSt v s)))
  | lenOk : s.sync.st = 2 → legalLen b = true →
      SyncMove s b (noDecode (recordEvent none
        { s with sync := { s.sync with len := b, cnt := 0, sum := headerSum b, st := 3 } }))
  | lenErr : s.sync.st = 2 → legalLen b = false →
      SyncMove s b (noDecode (recordEvent (some .errLen) { s with sync := { s.sync with len := b, st := 5 } }))
  | data : s.sync.st = 3 → s.sync.cnt.toNat + 2 < s.sync.len.toNat → s.sync.cnt.toNat < 58 →
      SyncMove s b (noDecode (recordEvent none
        { s with sync := { s.sync with
            abuf := s.sync.abuf.write s.sync.cnt.toNat b, sum := s.sync.sum + b.setWidth 16, cnt := s.sync.cnt + 1 } }))
  | ckhi : s.sync.st = 3 → s.sync.cnt.toNat + 2 = s.sync.len.toNat →
      SyncMove s b (noDecode (recordEvent none { s with sync := { s.sync with ckhi := b, cnt := s.sync.cnt + 1 } }))
  | ckloOk : s.sync.st = 3 → s.sync.cnt.toNat + 1 = s.sync.len.toNat → s.sync.len.toNat - 2 ≤ 58 →
      s.sync.sum = joinBytes s.sync.ckhi b →
      SyncMove s b (noDecode (recordEvent (some .frameOk)
        { publish s with sync := { s.sync with ckrx := joinBytes s.sync.ckhi b, cnt := s.sync.cnt + 1, st := 4 } }))
  | ckloBad : s.sync.st = 3 → s.sync.cnt.toNat + 1 = s.sync.len.toNat →
      s.sync.sum ≠ joinBytes s.sync.ckhi b →
      SyncMove s b (noDecode (recordEvent (some .errCksum)
        { s with sync := { s.sync with ckrx := joinBytes s.sync.ckhi b, cnt := s.sync.cnt + 1, st := 5 } }))

/-- The byte-class rules make synchronizer moves only. -/
theorem performClass_move {k : ByteClass} {b : Byte} {s t : State}
    (h : performClass k b s = .next t) : SyncMove s b t := by
  cases k <;> simp only [performClass] at h
  case hdr1 | hdr1Resident | noise | noiseResident | hdr2 | rehunt | resync =>
    obtain ⟨-, -, h⟩ := ifSelected_next h
    rw [finish_next h]
    exact .hunt _ (by decide)
  case lenOk =>
    obtain ⟨hs, hk, h⟩ := ifSelected_next h
    rw [finish_next h]
    rcases classify_spec hk with c | c | c | c | c | c | c | c | c | c | c | c | c | c <;> simp_all
    exact .lenOk hs c
  case lenErr =>
    obtain ⟨hs, hk, h⟩ := ifSelected_next h
    rw [finish_next h]
    rcases classify_spec hk with c | c | c | c | c | c | c | c | c | c | c | c | c | c <;> simp_all
    exact .lenErr hs c
  case data =>
    obtain ⟨hs, hk, h⟩ := ifSelected_next h
    split at h
    · rename_i hlt
      rw [finish_next h]
      rcases classify_spec hk with c | c | c | c | c | c | c | c | c | c | c | c | c | c <;>
        simp at c
      exact .data hs c hlt
    · cases h
  case ckhi =>
    obtain ⟨hs, hk, h⟩ := ifSelected_next h
    rw [finish_next h]
    rcases classify_spec hk with c | c | c | c | c | c | c | c | c | c | c | c | c | c <;>
      simp at c
    exact .ckhi hs c
  case ckloOk =>
    obtain ⟨hs, hk, h⟩ := ifSelected_next h
    split at h
    · rename_i hle
      rw [finish_next h]
      rcases classify_spec hk with c | c | c | c | c | c | c | c | c | c | c | c | c | c <;>
        simp at c
      exact .ckloOk hs c.1 hle c.2
    · cases h
  case ckloBad =>
    obtain ⟨hs, hk, h⟩ := ifSelected_next h
    rw [finish_next h]
    rcases classify_spec hk with c | c | c | c | c | c | c | c | c | c | c | c | c | c <;>
      simp at c
    exact .ckloBad hs c.1 c.2
  case illegal =>
    obtain ⟨hs, hk, h⟩ := ifSelected_next h
    cases h
    rcases classify_spec hk with c | c | c | c | c | c | c | c | c | c | c | c | c | c <;> simp at c
    exact .recover (hs ▸ c)

theorem execPush_move {b : Byte} {s t : State} (h : execPush b s = .next t) : SyncMove s b t := by
  unfold execPush at h
  split at h
  · exact performClass_move h
  · cases h

theorem idleSync_move (s : State) (b : Byte) : SyncMove s b (noDecode (idleSync s)) := by
  unfold idleSync
  split
  · rename_i h; exact .recover ((illegalSt_iff s).mp h)
  · rename_i h; exact .idle (fun c => h ((illegalSt_iff s).mpr c))

/-- Everything an edge can do: RESET, a synchronizer move without DECODE, or one with DECODE, whose MR registers are computed
from the state before the edge (R10, R104). -/
inductive EdgeMove (s : State) : State → Prop where
  | reset : EdgeMove s { State.reset with
      params := s.params, inputs := s.inputs, abufDraw := s.abufDraw + 1, fbufDraw := s.fbufDraw + 1 }
  | sync {b : Byte} {t : State} : SyncMove s b t → EdgeMove s t
  | decode {b : Byte} {t : State} : SyncMove s b t → EdgeMove s { t with meas := decodedMeas s }

/-- An operation makes one of the moves. -/
theorem exec_move {i : Instr} {s t : State} (h : exec i s = .next t) : EdgeMove s t := by
  cases i <;> simp only [exec] at h
  case reset => cases h; exact .reset
  case clear => rw [finish_next h]; exact .sync (.clear (b := 0))
  case push b => exact .sync (execPush_move h)
  case decode =>
    cases h
    have hm := EdgeMove.decode (s := s) (idleSync_move s 0)
    exact hm
  case idle => cases h; exact .sync (idleSync_move s 0)
  case bHdr1 => exact .sync (performClass_move (k := .hdr1) (b := Config.hdr1) h)
  case bHdr1Resident low =>
    obtain ⟨-, -, h⟩ := ifSelected_next h
    rw [finish_next h]
    exact .sync (.hunt (b := 0) 1 (by decide))
  case bNoise b => exact .sync (performClass_move (k := .noise) h)
  case bNoiseResident low b =>
    obtain ⟨-, -, h⟩ := ifSelected_next h
    rw [finish_next h]
    exact .sync (.hunt (b := b) 0 (by decide))
  case bHdr2 => exact .sync (performClass_move (k := .hdr2) (b := Config.hdr2) h)
  case bRehunt => exact .sync (performClass_move (k := .rehunt) (b := Config.hdr1) h)
  case bResync b => exact .sync (performClass_move (k := .resync) h)
  case bLenOk b => exact .sync (performClass_move (k := .lenOk) h)
  case bLenErr b => exact .sync (performClass_move (k := .lenErr) h)
  case bData b => exact .sync (performClass_move (k := .data) h)
  case bCkhi b => exact .sync (performClass_move (k := .ckhi) h)
  case bCkloOk b => exact .sync (performClass_move (k := .ckloOk) h)
  case bCkloBad b => exact .sync (performClass_move (k := .ckloBad) h)
  case stIllegal low b =>
    obtain ⟨hs, hk, h⟩ := ifSelected_next h
    cases h
    rcases classify_spec hk with c | c | c | c | c | c | c | c | c | c | c | c | c | c <;> simp at c
    exact .sync (.recover (b := b) (hs ▸ c))

/-- The first operation of an edge with rst = 0 makes a synchronizer move. -/
theorem decodeOp_move {e : Edge} {s t : State} (hr : e.rst = false) (hd : (e.clr || e.inValid) = true)
    (h : exec (decodeOp e) s = .next t) : SyncMove s e.inByte t := by
  simp only [decodeOp, hr] at h
  by_cases hc : e.clr = true
  · simp only [hc, exec] at h
    rw [finish_next h]
    exact .clear
  · have hv : e.inValid = true := by simpa [hc] using hd
    simp only [hc, hv, exec] at h
    exact execPush_move h

/-- A step with rst = 1 is RESET of the state with the edge's inputs taken. -/
theorem step_reset {s : State} (hr : (nextEdge s).rst = true) : step s = exec .reset (takeEdge s) := by
  simp [step, performOps, decodeEdge, decodeOp, hr]

theorem execDecode_meas {s t : State} (h : exec .decode s = .next t) : t.meas = decodedMeas s := by
  simp only [exec, execDecode, Host.Outcome.next.injEq] at h
  rw [← h]

/-- A step with rst = 0 makes a synchronizer move with the edge's byte, and with dec_start the MR registers are those of a DECODE of
the state before the edge. -/
theorem step_move {s t : State} (hr : (nextEdge s).rst = false) (h : step s = .next t) :
    ∃ u, SyncMove (takeEdge s) (nextEdge s).inByte u
      ∧ ((nextEdge s).decStart = true → t = { u with meas := decodedMeas (takeEdge s) })
      ∧ ((nextEdge s).decStart = false → t = u) := by
  unfold step performOps at h
  by_cases ha : (decodeEdge (nextEdge s)).alongside = true
  · rw [if_pos ha] at h
    obtain ⟨u, v, hu, hv, rfl⟩ := alongside_next h
    simp only [decodeEdge, Bool.and_eq_true, Bool.not_eq_true'] at ha
    rw [execDecode_meas hv]
    exact ⟨u, decodeOp_move ha.1.1 ha.2 hu, fun _ => rfl, fun hd => by simp [ha.1.2] at hd⟩
  · rw [if_neg ha] at h
    simp only [decodeEdge] at h ha
    by_cases hx : ((nextEdge s).clr || (nextEdge s).inValid) = true
    · have hd : (nextEdge s).decStart = false := by simpa [hr, hx] using ha
      exact ⟨t, decodeOp_move hr hx h, fun c => by simp [hd] at c, fun _ => rfl⟩
    · simp only [Bool.or_eq_true, not_or, Bool.not_eq_true] at hx
      refine ⟨_, idleSync_move (takeEdge s) _, fun hd => ?_, fun hd => ?_⟩
      · simp only [decodeOp, hr, hx.1, hx.2, hd, exec, execDecode] at h
        cases h
        rfl
      · simp only [decodeOp, hr, hx.1, hx.2, hd, exec, execIdle] at h
        cases h
        rfl

end Sys2Proof.Machine
end

