-- ==== Sys2Proof/Laws/PerInstr.lean ====
section
/-! SUPPORT. One law for each constructor: the encoder's word of a well-formed operation lies in its row of
spec/opcode_table.json, by the row's own match and mask. -/

namespace Sys2Proof.Laws.EncodeInRow

/-- `word & mask = match` for the encoder's word. -/
def Statement (i : Instr) : Prop := i.wf = true → (encode i).bits &&& i.row.2 = i.row.1

/-- The state bits of an SBW word. -/
theorem sbWord_and_state (st : BitVec 3) (b : Byte) : (sbWord st b).toNat &&& 0x700 = 256 * st.toNat := by
  have h : sbWord st b &&& 0x700#11 = st.setWidth 11 <<< 8 := by
    ext i hi
    simp [sbWord]
    have : i = 0 ∨ i = 1 ∨ i = 2 ∨ i = 3 ∨ i = 4 ∨ i = 5 ∨ i = 6 ∨ i = 7 ∨ i = 8 ∨ i = 9 ∨ i = 10 := by omega
    rcases this with rfl | rfl | rfl | rfl | rfl | rfl | rfl | rfl | rfl | rfl | rfl <;> simp
  have h' := congrArg BitVec.toNat h
  rw [BitVec.toNat_and] at h'
  refine h'.trans ?_
  have := st.isLt
  simp [Nat.shiftLeft_eq]
  omega

/-- The two high state bits of an SBW word, which the rows with two states fix. -/
theorem sbWord_and_pair (st : BitVec 3) (b : Byte) : (sbWord st b).toNat &&& 0x600 = 512 * (st.toNat / 2) := by
  have h : (0x600 : Nat) = 0x700 &&& 0x600 := by decide
  rw [h, ← Nat.and_assoc, sbWord_and_state]
  revert st
  decide

theorem reset : Statement .reset := fun _ => by decide
theorem clear : Statement .clear := fun _ => by decide
theorem push (b : Byte) : Statement (.push b) := fun _ => by simp [encode, EncWord.bits, Instr.row]
theorem decode : Statement .decode := fun _ => by decide
theorem idle : Statement .idle := fun _ => by decide
theorem bHdr1 : Statement .bHdr1 := fun _ => by decide
theorem bHdr1Resident (low : BitVec 1) : Statement (.bHdr1Resident low) := by
  unfold Statement
  revert low
  decide
theorem bNoise (b : Byte) : Statement (.bNoise b) := fun _ => sbWord_and_state 0 b
theorem bNoiseResident (low : BitVec 1) (b : Byte) : Statement (.bNoiseResident low b) := by
  intro w
  clear w
  have h := sbWord_and_pair (residentState low) b
  have e : 512 * ((residentState low).toNat / 2) = 0x400 := by clear h; revert low; decide
  exact h.trans e
theorem bHdr2 : Statement .bHdr2 := fun _ => by decide
theorem bRehunt : Statement .bRehunt := fun _ => by decide
theorem bResync (b : Byte) : Statement (.bResync b) := fun _ => sbWord_and_state 1 b
theorem bLenOk (b : Byte) : Statement (.bLenOk b) := fun _ => sbWord_and_state 2 b
theorem bLenErr (b : Byte) : Statement (.bLenErr b) := fun _ => sbWord_and_state 2 b
theorem bData (b : Byte) : Statement (.bData b) := fun _ => sbWord_and_state 3 b
theorem bCkhi (b : Byte) : Statement (.bCkhi b) := fun _ => sbWord_and_state 3 b
theorem bCkloOk (b : Byte) : Statement (.bCkloOk b) := fun _ => sbWord_and_state 3 b
theorem bCkloBad (b : Byte) : Statement (.bCkloBad b) := fun _ => sbWord_and_state 3 b
theorem stIllegal (low : BitVec 1) (b : Byte) : Statement (.stIllegal low b) := by
  intro w
  clear w
  have h := sbWord_and_pair (illegalState low) b
  have e : 512 * ((illegalState low).toNat / 2) = 0x600 := by clear h; revert low; decide
  exact h.trans e

end Sys2Proof.Laws.EncodeInRow
end

