-- ==== Sys2Proof/Tests/Slice0.lean ====
section
/-! SUPPORT. The model's own tests: ill-formed terms, words written out from R59 and R60, single steps from the vectors of
spec/95_test_vectors.md, and a witness for the hypotheses of each statement. -/

namespace Sys2Proof.Tests

open Sys2Proof Sys2Proof.Machine

/-! ## Small states -/

/-- After RESET, with the fixture TCFG (95_test_vectors.md section 0). -/
def base : State := { State.reset with params := Config.fixture }

/-- `base` with ST forced. -/
def inSt (st : BitVec 3) : State := { base with sync := { base.sync with st := st } }

/-- `base` in READ_BODY, with one data byte 0x00 in ABUF. -/
def inBody (len : BitVec 8) (cnt : BitVec 6) (sum : Sum16) (ckhi : Byte) : State :=
  { base with sync := { st := 3, len := len, cnt := cnt, sum := sum, ckhi := ckhi, ckrx := 0, abuf := [(0, 0x00)] } }

/-- `base` with a frame of the given data in FBUF, the first one accepted. -/
def withFrame (d : List Byte) : State :=
  { base with
    frame := { fbuf := (List.range d.length).zip d, flen := BitVec.ofNat 6 d.length, fvalid := true, fseq := 1 } }

/-- `s` with H2_REHUNT = true. -/
def rehunting (s : State) : State := { s with params := { s.params with h2Rehunt := true } }

/-- `s` with the one edge `{opw, b}` to come. -/
def driven (s : State) (opw : BitVec 4) (b : Byte) : State := { s with inputs := [{ opw := opw, inByte := b }] }

/-- The operation goes on, to a state of which `p` holds. -/
def nextIs (o : Result) (p : State → Bool) : Bool :=
  match o with
  | .next t => p t
  | _ => false

/-- The operation is refused because R60 does not select its row. -/
def isUnselected (o : Result) : Bool :=
  match o with
  | .refused .classNotSelected => true
  | _ => false

/-- The operation stops with the fault. -/
def isFault (o : Result) (r : Fault) : Bool :=
  match o with
  | .fault q => q == r
  | _ => false

/-- The payloads of V-M1, V-M2, V-M4 and V-M6. -/
def payloadM1 : List Byte := [0x03, 0x30, 0x20, 0x20, 0x31, 0x32, 0x33, 0x2E, 0x34, 0x01, 0x02, 0x0B, 0x00, 0x08]
def payloadM2 : List Byte := [0x06, 0x31, 0x20, 0x20, 0x31, 0x2E, 0x32, 0x33, 0x34, 0x00, 0x00, 0x00, 0x00, 0x00]
def payloadM4 : List Byte := [0x03, 0x30, 0x20, 0x20, 0x20, 0x20, 0x20, 0x4F, 0x4C, 0x00, 0x00, 0x00, 0x00, 0x00]
def payloadM6 : List Byte := [0x02, 0x30, 0x20, 0x20, 0x20, 0x20, 0x20, 0x20, 0x2D, 0x00, 0x00, 0x00, 0x00, 0x00]

/-! ## Ill-formed terms (R60's byte column) -/

theorem test_illformed_noise : (Instr.bNoise 0xAB).wf = false := by decide
theorem test_illformed_noise_resident : (Instr.bNoiseResident 0 0xAB).wf = false := by decide
theorem test_illformed_resync : (Instr.bResync 0xCD).wf = false := by decide
theorem test_illformed_len_ok : (Instr.bLenOk 2).wf = false ∧ (Instr.bLenOk 61).wf = false := by decide
theorem test_illformed_len_err : (Instr.bLenErr 3).wf = false ∧ (Instr.bLenErr 60).wf = false := by decide
theorem test_wellformed_bounds :
    (Instr.bLenOk 3).wf = true ∧ (Instr.bLenOk 60).wf = true ∧ (Instr.bLenErr 2).wf = true ∧ (Instr.bLenErr 61).wf = true := by
  decide

/-! ## The parameters (R7, R8) -/

/-- One character stands for one prefix: with kΩ at 3, kHz at -9 is no EXP_TABLE, whatever the prefix characters; and a block has
H2_REHUNT = false by default. -/
theorem test_params_legal : Config.fixture.legal = true ∧ Config.fixture.h2Rehunt = false
    ∧ ({ Config.fixture with expTable := [("kΩ", 3), ("kHz", -9)] } : Params).legal = false
    ∧ ({ Config.fixture with expTable := [("kΩ", 3), ("kHz", -9)], prefixChars := [('k', -9)] } : Params).legal = false
    ∧ ({ Config.fixture with expTable := [("kΩ", 3), ("M", 6)] } : Params).legal = false := by decide

/-- R8: H2_REHUNT is at its default after reset. -/
theorem test_reset_rehunt : State.reset.params.h2Rehunt = false := by
  show Config.params.h2Rehunt = false
  unfold Config.params
  split <;> rfl

/-! ## Decoding: words written out from R59 and R60 -/

/-- The five operation words of R59, and don't-care bits: 1111 is RESET, 0101 is CLEAR. -/
theorem test_decode_ops :
    decodeTableWord 8 0b1000 = some .reset ∧ decodeTableWord 8 0b0100 = some .clear
    ∧ decodeTableWord 8 0b0001 = some (.push 0) ∧ decodeTableWord 8 0b0010 = some .decode
    ∧ decodeTableWord 8 0b0000 = some .idle ∧ decodeTableWord 8 0b1111 = some .reset
    ∧ decodeTableWord 8 0b0101 = some .clear := by decide

/-- OPW = 0011 is PUSH with DECODE alongside; RESET overrides DECODE (R104). -/
theorem test_decode_edge :
    decodeEdge { opw := 0b0011, inByte := 0x55 } = { main := .push 0x55, alongside := true }
    ∧ decodeEdge { opw := 0b1010, inByte := 0x55 } = { main := .reset, alongside := false } := by decide

/-- ST = 0, 4, 5: 0xAB is B.HDR1, every other byte B.NOISE. -/
theorem test_decode_hunt :
    decodeTableWord 16 0b000_10101011 = some .bHdr1 ∧ decodeTableWord 16 0b100_10101011 = some (.bHdr1Resident 0)
    ∧ decodeTableWord 16 0b101_10101011 = some (.bHdr1Resident 1) ∧ decodeTableWord 16 0b000_00000000 = some (.bNoise 0)
    ∧ decodeTableWord 16 0b100_11001101 = some (.bNoiseResident 0 0xCD)
    ∧ decodeTableWord 16 0b101_11111111 = some (.bNoiseResident 1 0xFF) := by decide

/-- ST = 1. With H2_REHUNT = false the word of B.REHUNT is B.RESYNC's. -/
theorem test_decode_second_header :
    decodeTableWord 16 0b001_11001101 = some .bHdr2 ∧ decodeTableWord 16 0b001_10101011 = some .bRehunt
    ∧ decodeTableWord 16 0b001_00000000 = some (.bResync 0)
    ∧ (decode { tableCtx 0 with h2Rehunt := false } (.sb 0b001_10101011)).toOption = some (.bResync 0xAB) := by decide

/-- ST = 2: 3 and 60 are B.LEN_OK, 2 and 61 are B.LEN_ERR. -/
theorem test_decode_length :
    decodeTableWord 16 0b010_00000011 = some (.bLenOk 3) ∧ decodeTableWord 16 0b010_00111100 = some (.bLenOk 60)
    ∧ decodeTableWord 16 0b010_00000010 = some (.bLenErr 2) ∧ decodeTableWord 16 0b010_00111101 = some (.bLenErr 61) := by
  decide

/-- ST = 3: the four rows share their words, and CNT, LEN, SUM and CKHI decide. -/
theorem test_decode_body :
    (decode { h2Rehunt := false, len := 3, cnt := 0, sum := 0, ckhi := 0 } (.sb 0b011_01111011)).toOption = some (.bData 0x7B)
    ∧ (decode { h2Rehunt := false, len := 3, cnt := 1, sum := 0, ckhi := 0 } (.sb 0b011_01111011)).toOption
        = some (.bCkhi 0x7B)
    ∧ (decode { h2Rehunt := false, len := 3, cnt := 2, sum := 0x17B, ckhi := 1 } (.sb 0b011_01111011)).toOption
        = some (.bCkloOk 0x7B)
    ∧ (decode { h2Rehunt := false, len := 3, cnt := 2, sum := 0x17C, ckhi := 1 } (.sb 0b011_01111011)).toOption
        = some (.bCkloBad 0x7B)
    ∧ (decode { h2Rehunt := false, len := 3, cnt := 3, sum := 0x17B, ckhi := 1 } (.sb 0b011_01111011)).toOption = none := by
  decide

/-- ST = 6 and 7 are ST.ILLEGAL whatever the byte. -/
theorem test_decode_illegal :
    decodeTableWord 16 0b110_10101011 = some (.stIllegal 0 0xAB) ∧ decodeTableWord 16 0b111_01010101 = some (.stIllegal 1 0x55) := by
  decide

/-- Words of neither format are rejected. -/
theorem test_decode_rejects :
    decodeTableWord 8 0b10000 = none ∧ decodeTableWord 16 0x800 = none ∧ decodeTableWord 24 0 = none := by decide

/-! ## Single steps, from the vectors of 95_test_vectors.md -/

/-- V-K8: RESET overrides everything. -/
theorem test_reset : nextIs (step (driven (withFrame payloadM1) 0b1111 0xAB)) (fun t =>
    t.sync.st == 0 && t.frame.fvalid == false && t.frame.flen == 0 && t.frame.fseq == 0 && t.meas.stb == false) = true := by
  decide

/-- V-K2 and V-K3: CLEAR keeps LEN and SUM, raises nothing and drops the byte. -/
theorem test_clear : nextIs (step (driven (inBody 16 2 0x1BB 0) 0b0101 0xAB)) (fun t =>
    t.sync.st == 0 && t.sync.cnt == 0 && t.sync.len == 0x10 && t.sync.sum == 0x1BB && t.ev == base.ev) = true := by decide

/-- V-K6: CLEAR wins over the recovery. -/
theorem test_clear_illegal : nextIs (step (driven (inSt 6) 0b0100 0)) (fun t =>
    t.sync.st == 0 && t.ev.evStb == false && t.ev.eseq == 0) = true := by decide

/-- V-S1, first byte. -/
theorem test_push_header : nextIs (step (driven base 0b0001 0xAB)) (fun t => t.sync.st == 1) = true := by decide

/-- V-K4: PUSH 55 with ST = 7. -/
theorem test_push_illegal : nextIs (step (driven (inSt 7) 0b0001 0x55)) (fun t =>
    t.sync.st == 5 && t.ev.lastEv == 4 && t.ev.evStb && t.ev.eseq == 1 && t.sync.len == 0) = true := by decide

/-- V-K1: EV_STB lasts one edge. -/
theorem test_idle : nextIs (step { withFrame [0] with ev := { lastEv := 1, evStb := true, eseq := 0 } }) (fun t =>
    t.ev == { lastEv := 1, evStb := false, eseq := 0 } && t.frame == (withFrame [0]).frame) = true := by decide

/-- V-K5: the recovery needs no byte. -/
theorem test_idle_illegal : nextIs (step (driven (inSt 6) 0b0000 0)) (fun t =>
    t.sync.st == 5 && t.ev.lastEv == 4 && t.ev.eseq == 1) = true := by decide

/-- V-M1: DCmV, 123.4, mV, progress 12, flags 0x44B. -/
theorem test_decode_number : nextIs (step (driven (withFrame payloadM1) 0b0010 0)) (fun t =>
    t.meas.valid && t.meas.fields.cls == 0 && t.meas.fields.mant == 1234 && t.meas.fields.exp == -1
      && t.meas.fields.progress == 12 && t.meas.fields.flags == 0x44B && outMode t == some "DCmV"
      && outUnit t == some "mV") = true := by decide

/-- V-M2: 1.234 kΩ is 1234 Ω. -/
theorem test_decode_scaled : nextIs (step (driven (withFrame payloadM2) 0b0010 0)) (fun t =>
    t.meas.valid && t.meas.fields.mant == 1234 && t.meas.fields.exp == 0 && t.meas.fields.strip
      && outUnitRes t == some "kΩ" && outUnit t == some "Ω") = true := by decide

/-- W10 and W11: "OL" is an overload, "-" is NCV 1. -/
theorem test_sentinels :
    (classifyText [0x4F, 0x4C]).map (·.1) = some .ovl ∧ classifyText [0x2D] = some (.ncv, { neg := false, mant := 1, exp := 0 }) := by
  decide

/-- V-M12a, V-M12f, V-M12g, V-M12h, V-M12j, V-M12k: the decimal grammar. -/
theorem test_parse :
    parseLiteral [0x31, 0x2E, 0x32, 0x2E, 0x33] = none
    ∧ parseLiteral [0x2E, 0x35] = some { neg := false, mant := 5, exp := -1 }
    ∧ parseLiteral [0x35, 0x2E] = some { neg := false, mant := 5, exp := 0 }
    ∧ parseLiteral [0x2D, 0x30, 0x2E, 0x30, 0x30, 0x30] = some { neg := true, mant := 0, exp := -3 }
    ∧ parseLiteral [0x2E] = none ∧ parseLiteral [0x2B] = none := by decide

/-- V-M16a: no frame is ERR_INPUT. -/
theorem test_decode_no_frame : nextIs (step (driven base 0b0010 0)) (fun t =>
    t.meas.valid == false && t.meas.err == 1 && t.meas.stb) = true := by decide

/-- V-C1, V-C3 and V-C4. -/
theorem test_checksum : cks 3 [0x00] = 0x17B ∧ cks 4 [0x01, 0x02] = 0x17F ∧ cks 5 [0xAB, 0xCD, 0x00] = 0x2F5 := by decide

/-- R66 from AWAIT_HDR1; out of its state the row is not selected. -/
theorem test_hdr1 : nextIs (exec .bHdr1 base) (fun t => t.sync.st == 1) = true ∧ isUnselected (exec .bHdr1 (inSt 1)) = true := by
  decide

/-- V-S16 and V-S17: a frame starts from COMPLETE and from ERROR. -/
theorem test_hdr1_resident : nextIs (exec (.bHdr1Resident 0) (inSt 4)) (fun t => t.sync.st == 1) = true
    ∧ nextIs (exec (.bHdr1Resident 1) (inSt 5)) (fun t => t.sync.st == 1) = true := by decide

/-- V-S18: 0xCD in AWAIT_HDR1 is noise. -/
theorem test_noise : nextIs (exec (.bNoise 0xCD) base) (fun t => t.sync.st == 0) = true := by decide

/-- V-S6: the last 0xCD is noise in ERROR. -/
theorem test_noise_resident : nextIs (exec (.bNoiseResident 1 0xCD) (inSt 5)) (fun t => t.sync.st == 0) = true := by decide

/-- R68. -/
theorem test_hdr2 : nextIs (exec .bHdr2 (inSt 1)) (fun t => t.sync.st == 2) = true := by decide

/-- V-S9b: with H2_REHUNT, 0xAB keeps AWAIT_HDR2; without it the row is not selected. -/
theorem test_rehunt : nextIs (exec .bRehunt (rehunting (inSt 1))) (fun t => t.sync.st == 1) = true
    ∧ isUnselected (exec .bRehunt (inSt 1)) = true := by decide

/-- V-S8 and V-S9a: B.RESYNC on 0x00 and, without H2_REHUNT, on 0xAB. -/
theorem test_resync : nextIs (exec (.bResync 0) (inSt 1)) (fun t => t.sync.st == 0) = true
    ∧ nextIs (exec (.bResync 0xAB) (inSt 1)) (fun t => t.sync.st == 0) = true := by decide

/-- V-S1, third byte: SUM = 0xAB + 0xCD + 3. -/
theorem test_len_ok : nextIs (exec (.bLenOk 3) (inSt 2)) (fun t =>
    t.sync.st == 3 && t.sync.len == 3 && t.sync.cnt == 0 && t.sync.sum == 0x17B) = true := by decide

/-- V-S4: 61 is ERR_LEN. -/
theorem test_len_err : nextIs (exec (.bLenErr 0x3D) (inSt 2)) (fun t =>
    t.sync.st == 5 && t.sync.len == 0x3D && t.sync.sum == 0 && t.ev.lastEv == 2 && t.ev.eseq == 1) = true := by decide

/-- R72: the data byte 0xCD at index 1 of a 4-byte body is data (R50). -/
theorem test_data : nextIs (exec (.bData 0xCD) (inBody 4 1 0x17C 0)) (fun t =>
    t.sync.st == 3 && t.sync.abuf == [(0, 0x00), (1, 0xCD)] && t.sync.sum == 0x249 && t.sync.cnt == 2) = true := by decide

/-- V-S1, fifth byte: SUM does not take the checksum in. -/
theorem test_ckhi : nextIs (exec (.bCkhi 0x01) (inBody 3 1 0x17B 0)) (fun t =>
    t.sync.ckhi == 1 && t.sync.cnt == 2 && t.sync.sum == 0x17B && t.sync.st == 3) = true := by decide

/-- V-S1, sixth byte. -/
theorem test_cklo_ok : nextIs (exec (.bCkloOk 0x7B) (inBody 3 2 0x17B 1)) (fun t =>
    t.sync.st == 4 && t.sync.cnt == 3 && t.sync.ckrx == 0x17B && t.frame.fbuf == [(0, 0x00)] && t.frame.flen == 1
      && t.frame.fvalid && t.frame.fseq == 1 && t.ev == { lastEv := 1, evStb := true, eseq := 0 }) = true := by decide

/-- V-S12: the low byte is wrong. -/
theorem test_cklo_bad : nextIs (exec (.bCkloBad 0x7C) (inBody 3 2 0x17B 1)) (fun t =>
    t.sync.st == 5 && t.sync.ckrx == 0x17C && t.sync.cnt == 3 && t.frame == base.frame && t.ev.lastEv == 3
      && t.ev.eseq == 1) = true := by decide

/-- R76. -/
theorem test_st_illegal : nextIs (exec (.stIllegal 0 0xAB) (inSt 6)) (fun t =>
    t.sync.st == 5 && t.ev.lastEv == 4 && t.ev.eseq == 1) = true := by decide

/-- R44: FBUF bytes FLEN..57 are no byte of an earlier frame that a proof could name, and above 57 there is none (R36). -/
theorem test_fbuf_bounds : hostReadFbuf (withFrame [7]) 0 = some 7
    ∧ hostReadFbuf (withFrame [7]) 1 = some (Config.unspecifiedByte .fbuf 0 1) ∧ hostReadFbuf (withFrame [7]) 58 = none :=
  ⟨by decide, rfl, by decide⟩

/-! ## Witnesses: for each statement with hypotheses, concrete inputs that meet them -/

/-- Inv holds in READ_BODY after V-S1's fifth byte and before it. -/
theorem body_inv : (inBody 3 1 0x17B 0).Inv ∧ (inBody 3 2 0x17B 1).Inv := by
  refine ⟨⟨by decide, ⟨by decide, by decide, by decide, fun _ => ⟨by decide, by decide, by decide, by decide, by decide⟩⟩,
      ⟨by decide, by decide, by decide, by decide, by decide⟩, fun h => absurd h (by decide), ⟨by decide, by decide⟩,
      ⟨by decide, by decide, by decide, by decide, by decide, by decide, by decide, by decide, by decide, by decide⟩⟩, ?_⟩
  exact ⟨by decide, ⟨by decide, by decide, by decide, fun _ => ⟨by decide, by decide, by decide, by decide, by decide⟩⟩,
      ⟨by decide, by decide, by decide, by decide, by decide⟩, fun h => absurd h (by decide), ⟨by decide, by decide⟩,
      ⟨by decide, by decide, by decide, by decide, by decide, by decide, by decide, by decide, by decide, by decide⟩⟩

/-- The same state with edges to come. -/
theorem body_inv_driven (opw : BitVec 4) (b : Byte) : (driven (inBody 3 2 0x17B 1) opw b).Inv := by
  obtain ⟨h1, h2, h3, -, h5, h6⟩ := body_inv.2
  refine ⟨h1, ⟨h2.1, h2.2, h2.3, fun h => ?_⟩, ⟨h3.1, h3.2, h3.3, h3.4, h3.5⟩, fun h => absurd h (show ¬ ((3 : BitVec 3) = 4) by decide), ⟨h5.1, h5.2⟩, ?_⟩
  · obtain ⟨a, b, c, d, e⟩ := h2.4 h
    exact ⟨a, b, c, d, e⟩
  · exact ⟨h6.1, h6.2, h6.3, h6.4, h6.5, h6.6, h6.7, h6.8, h6.9, h6.10⟩

theorem witness_ResetSetsEveryRegister : (nextEdge (driven base 0b1000 0)).opw.getLsbD 3 = true
    ∧ (nextEdge (driven base 0b1111 0xAB)).opw.getLsbD 3 = true := by decide

theorem witness_ClearAbandonsTheFrame :
    ((nextEdge (driven base 0b0101 0xAB)).opw.getLsbD 3 = false ∧ (nextEdge (driven base 0b0101 0xAB)).opw.getLsbD 2 = true
      ∧ (nextEdge (driven base 0b0101 0xAB)).opw.getLsbD 1 = false)
    ∧ (nextEdge (driven (inSt 7) 0b0110 0)).opw.getLsbD 3 = false ∧ (nextEdge (driven (inSt 7) 0b0110 0)).opw.getLsbD 2 = true
      ∧ (nextEdge (driven (inSt 7) 0b0110 0)).opw.getLsbD 1 = true := by decide

theorem witness_IdleChangesOnlyTheStrobes :
    (inSt 0).sync.st ≠ 6 ∧ (inSt 0).sync.st ≠ 7 ∧ (inSt 5).sync.st ≠ 6 ∧ (inSt 5).sync.st ≠ 7 := by decide

theorem witness_PushPerformsTheSelectedClass :
    decode (classCtx (inBody 3 2 0x17B 1)) (.sb (sbWord (inBody 3 2 0x17B 1).sync.st 0x7B)) = .ok (.bCkloOk 0x7B)
    ∧ decode (classCtx (inSt 7)) (.sb (sbWord (inSt 7).sync.st 0)) = .ok (.stIllegal 1 0) := ⟨rfl, rfl⟩

theorem witness_IllegalStateRecovers :
    (inSt 6).sync.st = 6 + (0 : BitVec 1).setWidth 3 ∧ (inSt 7).sync.st = 6 + (1 : BitVec 1).setWidth 3 := by decide

theorem witness_FirstHeaderByte : (inSt 0).sync.st = 0 ∧ (inSt 4).sync.st = 4 + (0 : BitVec 1).setWidth 3
    ∧ (inSt 5).sync.st = 4 + (1 : BitVec 1).setWidth 3 := by decide

theorem witness_HeaderSearchNoise : ((inSt 0).sync.st = 0 ∧ (0xAA : Byte) ≠ 0xAB)
    ∧ ((inSt 4).sync.st = 4 + (0 : BitVec 1).setWidth 3 ∧ (0xAC : Byte) ≠ 0xAB)
    ∧ (inSt 5).sync.st = 4 + (1 : BitVec 1).setWidth 3 ∧ (0xCD : Byte) ≠ 0xAB := by decide

theorem witness_SecondHeaderByte : (inSt 1).sync.st = 1 := by decide

theorem witness_WrongSecondHeaderByte :
    ((rehunting (inSt 1)).sync.st = 1 ∧ (rehunting (inSt 1)).params.h2Rehunt = true)
    ∧ ((inSt 1).sync.st = 1 ∧ (0xAB : Byte) ≠ 0xCD ∧ ¬ ((0xAB : Byte) = 0xAB ∧ (inSt 1).params.h2Rehunt = true))
    ∧ (rehunting (inSt 1)).sync.st = 1 ∧ (0xAC : Byte) ≠ 0xCD
      ∧ ¬ ((0xAC : Byte) = 0xAB ∧ (rehunting (inSt 1)).params.h2Rehunt = true) := by decide

theorem witness_LengthByteAccepted : (inSt 2).sync.st = 2 ∧ 3 ≤ (3 : Byte).toNat ∧ (3 : Byte).toNat ≤ 60
    ∧ 3 ≤ (60 : Byte).toNat ∧ (60 : Byte).toNat ≤ 60 := by decide

theorem witness_LengthByteRejected : (inSt 2).sync.st = 2 ∧ ((2 : Byte).toNat < 3 ∨ 60 < (2 : Byte).toNat)
    ∧ ((61 : Byte).toNat < 3 ∨ 60 < (61 : Byte).toNat) := by decide

theorem witness_DataByteAccumulates :
    ((inBody 3 0 0x17B 0).sync.st = 3 ∧ (inBody 3 0 0x17B 0).sync.cnt.toNat + 2 < (inBody 3 0 0x17B 0).sync.len.toNat
      ∧ (inBody 3 0 0x17B 0).sync.len.toNat ≤ 60)
    ∧ (inBody 60 57 0x200 0).sync.st = 3 ∧ (inBody 60 57 0x200 0).sync.cnt.toNat + 2 < (inBody 60 57 0x200 0).sync.len.toNat
      ∧ (inBody 60 57 0x200 0).sync.len.toNat ≤ 60 := by decide

theorem witness_ChecksumHighByteHeld : (inBody 3 1 0x17B 0).sync.st = 3 ∧ (inBody 3 1 0x17B 0).sync.len.toNat ≤ 60
    ∧ (inBody 3 1 0x17B 0).sync.cnt.toNat + 2 = (inBody 3 1 0x17B 0).sync.len.toNat := by decide

theorem witness_MatchingChecksumPublishes :
    ((inBody 3 2 0x17B 1).sync.st = 3 ∧ 3 ≤ (inBody 3 2 0x17B 1).sync.len.toNat ∧ (inBody 3 2 0x17B 1).sync.len.toNat ≤ 60
      ∧ (inBody 3 2 0x17B 1).sync.cnt.toNat + 1 = (inBody 3 2 0x17B 1).sync.len.toNat
      ∧ (inBody 3 2 0x17B 1).sync.sum.toNat = 256 * (inBody 3 2 0x17B 1).sync.ckhi.toNat + (0x7B : Byte).toNat)
    ∧ (inBody 60 59 0x3B7A 0x3B).sync.st = 3 ∧ 3 ≤ (inBody 60 59 0x3B7A 0x3B).sync.len.toNat
      ∧ (inBody 60 59 0x3B7A 0x3B).sync.len.toNat ≤ 60
      ∧ (inBody 60 59 0x3B7A 0x3B).sync.cnt.toNat + 1 = (inBody 60 59 0x3B7A 0x3B).sync.len.toNat
      ∧ (inBody 60 59 0x3B7A 0x3B).sync.sum.toNat = 256 * (inBody 60 59 0x3B7A 0x3B).sync.ckhi.toNat + (0x7A : Byte).toNat := by
  decide

theorem witness_MismatchingChecksumDiscards : (inBody 3 2 0x17B 1).sync.st = 3 ∧ (inBody 3 2 0x17B 1).sync.len.toNat ≤ 60
    ∧ (inBody 3 2 0x17B 1).sync.cnt.toNat + 1 = (inBody 3 2 0x17B 1).sync.len.toNat
    ∧ (inBody 3 2 0x17B 1).sync.sum.toNat ≠ 256 * (inBody 3 2 0x17B 1).sync.ckhi.toNat + (0x7C : Byte).toNat := by decide

theorem witness_UnselectedRowIsRefused :
    (encode .bHdr2 = .sb 0x1CD ∧ (sbState 0x1CD ≠ (inSt 0).sync.st ∨ decode (classCtx (inSt 0)) (.sb 0x1CD) ≠ .ok .bHdr2))
    ∧ encode .bRehunt = .sb 0x1AB ∧ sbState 0x1AB = (inSt 1).sync.st
      ∧ (sbState 0x1AB ≠ (inSt 1).sync.st ∨ decode (classCtx (inSt 1)) (.sb 0x1AB) ≠ .ok .bRehunt) :=
  ⟨⟨by decide, .inl (by decide)⟩, by decide, by decide, .inr (fun h => by cases h)⟩

theorem witness_UnreachableBodyStops :
    ((inBody 3 3 0 0).sync.st = 3 ∧ (inBody 3 3 0 0).sync.len.toNat ≤ (inBody 3 3 0 0).sync.cnt.toNat)
    ∧ ((inBody 61 58 0 0).sync.st = 3 ∧ 58 ≤ (inBody 61 58 0 0).sync.cnt.toNat
      ∧ (inBody 61 58 0 0).sync.cnt.toNat + 2 < (inBody 61 58 0 0).sync.len.toNat)
    ∧ (inBody 61 60 0x17B 1).sync.st = 3 ∧ 60 < (inBody 61 60 0x17B 1).sync.len.toNat
      ∧ (inBody 61 60 0x17B 1).sync.cnt.toNat + 1 = (inBody 61 60 0x17B 1).sync.len.toNat
      ∧ (inBody 61 60 0x17B 1).sync.sum.toNat = 256 * (inBody 61 60 0x17B 1).sync.ckhi.toNat + (0x7B : Byte).toNat := by decide

/-- LEN = 61 with a byte for index 57, LEN = 65 and 64 with CNT = 63, LEN = 1 and 2 with a matching low byte. -/
theorem witness_UnreachableBodyGoesOn :
    ((inBody 61 57 0 0).sync.st = 3 ∧ 60 < (inBody 61 57 0 0).sync.len.toNat ∧ (inBody 61 57 0 0).sync.cnt.toNat < 58)
    ∧ (60 < (inBody 65 63 0 0).sync.len.toNat
      ∧ (inBody 65 63 0 0).sync.cnt.toNat + 2 = (inBody 65 63 0 0).sync.len.toNat)
    ∧ (60 < (inBody 64 63 0 0).sync.len.toNat
      ∧ (inBody 64 63 0 0).sync.cnt.toNat + 1 = (inBody 64 63 0 0).sync.len.toNat
      ∧ (inBody 64 63 0 0).sync.sum.toNat ≠ 256 * (inBody 64 63 0 0).sync.ckhi.toNat + (1 : Byte).toNat)
    ∧ ((inBody 1 0 0x17B 1).sync.st = 3 ∧ (inBody 1 0 0x17B 1).sync.len = 1
      ∧ (inBody 1 0 0x17B 1).sync.cnt.toNat + 1 = (inBody 1 0 0x17B 1).sync.len.toNat
      ∧ (inBody 1 0 0x17B 1).sync.sum.toNat = 256 * (inBody 1 0 0x17B 1).sync.ckhi.toNat + (0x7B : Byte).toNat)
    ∧ (inBody 2 1 0x17B 1).sync.st = 3 ∧ (inBody 2 1 0x17B 1).sync.len = 2
      ∧ (inBody 2 1 0x17B 1).sync.cnt.toNat + 1 = (inBody 2 1 0x17B 1).sync.len.toNat
      ∧ (inBody 2 1 0x17B 1).sync.sum.toNat = 256 * (inBody 2 1 0x17B 1).sync.ckhi.toNat + (0x7B : Byte).toNat := by decide

theorem witness_StoringNothingKeepsTheBuffers : ∃ t, exec .idle (inBody 3 1 0x17B 0) = .next t := ⟨_, rfl⟩

/-- The hypotheses of a successful DECODE: a number that scales, an overload, a number that does not scale. -/
theorem witness_DecodeSuccessWritesTheResult :
    (∃ v, (withFrame payloadM2).sync.st.toNat ≤ 5 ∧ (withFrame payloadM2).frame.fvalid = true
      ∧ (withFrame payloadM2).frame.flen = 14 ∧ (withFrame payloadM2).params.mode (fbufByte (withFrame payloadM2) 0).toNat = some "OHM"
      ∧ classifyText (strip [fbufByte (withFrame payloadM2) 2, fbufByte (withFrame payloadM2) 3,
          fbufByte (withFrame payloadM2) 4, fbufByte (withFrame payloadM2) 5, fbufByte (withFrame payloadM2) 6,
          fbufByte (withFrame payloadM2) 7, fbufByte (withFrame payloadM2) 8]) = some (.num, v)
      ∧ (withFrame payloadM2).params.unit "OHM" (fbufByte (withFrame payloadM2) 1) = some "kΩ"
      ∧ (withFrame payloadM2).params.exp "kΩ" = some 3)
    ∧ ∃ v, (withFrame payloadM4).params.mode (fbufByte (withFrame payloadM4) 0).toNat = some "DCmV"
      ∧ classifyText (strip [fbufByte (withFrame payloadM4) 2, fbufByte (withFrame payloadM4) 3,
          fbufByte (withFrame payloadM4) 4, fbufByte (withFrame payloadM4) 5, fbufByte (withFrame payloadM4) 6,
          fbufByte (withFrame payloadM4) 7, fbufByte (withFrame payloadM4) 8]) = some (.ovl, v)
      ∧ (withFrame payloadM4).params.unit "DCmV" (fbufByte (withFrame payloadM4) 1) = some "mV"
      ∧ (withFrame payloadM4).params.exp "mV" = none := by
  refine ⟨⟨{ neg := false, mant := 1234, exp := -3 }, ?_⟩, { neg := false, mant := 0, exp := 0 }, ?_⟩ <;> decide

/-- V-M16b, V-M13b, V-M12j and V-M14. -/
theorem witness_DecodeErrorsInStepOrder :
    (base.sync.st.toNat ≤ 5 ∧ ¬ (base.frame.fvalid = true ∧ base.frame.flen = 14))
    ∧ (withFrame (0xFF :: payloadM1.tail)).params.modeTable.length ≤ (fbufByte (withFrame (0xFF :: payloadM1.tail)) 0).toNat
    ∧ ((withFrame payloadM1).params.mode 3 = some "DCmV" ∧ classifyText (strip [0x20, 0x20, 0x20, 0x20, 0x20, 0x20, 0x2E]) = none)
    ∧ classifyText (strip [0x20, 0x20, 0x31, 0x32, 0x33, 0x2E, 0x34]) ≠ none
      ∧ (withFrame payloadM1).params.unit "DCmV" 0x35 = none := by decide

theorem witness_DecodeRunsDuringRecovery : (inSt 6).sync.st = 6 + (0 : BitVec 1).setWidth 3
    ∧ (inSt 7).sync.st = 6 + (1 : BitVec 1).setWidth 3 := by decide

/-- A DECODE that succeeds: of a number, of an overload, and of NCV; the hypotheses of DisplayTextDecidesTheClass, FlagsFromThePayload
and DerivedOutputsAreDefined. -/
theorem witness_DisplayTextDecidesTheClass :
    (∃ t, exec .decode (withFrame payloadM1) = .next t ∧ t.meas.valid = true)
    ∧ (∃ t, exec .decode (withFrame payloadM4) = .next t ∧ t.meas.valid = true ∧ t.meas.fields.cls = 1)
    ∧ ∃ t, exec .decode (withFrame payloadM6) = .next t ∧ t.meas.valid = true ∧ t.meas.fields.cls = 2 :=
  ⟨⟨_, rfl, by decide⟩, ⟨_, rfl, by decide⟩, _, rfl, by decide⟩

theorem witness_ScalingIsExact : Config.fixture.legal = true
    ∧ (∃ t v, exec .decode (withFrame payloadM2) = .next t ∧ t.meas.valid = true
      ∧ classifyText (strip [0x20, 0x20, 0x31, 0x2E, 0x32, 0x33, 0x34]) = some (.num, v) ∧ MeasClass.num ≠ .ovl)
    ∧ Config.fixture.exp "kΩ" = some 3 ∧ Config.fixture.exp "mV" = none :=
  ⟨by decide, ⟨_, { neg := false, mant := 1234, exp := -3 }, rfl, by decide, by decide, by decide⟩, by decide, by decide⟩

theorem witness_FlagsFromThePayload : ∃ t, exec .decode (withFrame payloadM1) = .next t ∧ t.meas.valid = true :=
  ⟨_, rfl, by decide⟩

theorem witness_DerivedOutputsAreDefined :
    (∃ t, exec .decode (withFrame payloadM1) = .next t ∧ t.meas.valid = true) ∧ base.meas.valid = false :=
  ⟨⟨_, rfl, by decide⟩, by decide⟩

theorem witness_DecodeIsPure :
    (∃ t t', (∀ i, i < 14 → fbufByte (withFrame payloadM1) i = fbufByte (rehunting (withFrame payloadM1)) i)
      ∧ (withFrame payloadM1).frame.flen = (rehunting (withFrame payloadM1)).frame.flen
      ∧ (withFrame payloadM1).frame.fvalid = (rehunting (withFrame payloadM1)).frame.fvalid
      ∧ (withFrame payloadM1).params.modeTable = (rehunting (withFrame payloadM1)).params.modeTable
      ∧ (withFrame payloadM1).params.unitTable = (rehunting (withFrame payloadM1)).params.unitTable
      ∧ (withFrame payloadM1).params.expTable = (rehunting (withFrame payloadM1)).params.expTable
      ∧ exec .decode (withFrame payloadM1) = .next t ∧ exec .decode (rehunting (withFrame payloadM1)) = .next t')
    ∧ ∃ t u v, step (driven (withFrame payloadM1) 0b0001 0xAB) = .next t
      ∧ (nextEdge (driven (withFrame payloadM1) 0b0001 0xAB)).opw.getLsbD 3 = false
      ∧ ¬ (t.ev.evStb = true ∧ t.ev.lastEv = 1) ∧ exec .decode (driven (withFrame payloadM1) 0b0001 0xAB) = .next u
      ∧ exec .decode t = .next v :=
  ⟨⟨_, _, by decide, rfl, rfl, rfl, rfl, rfl, rfl, rfl⟩, _, _, _, rfl, by decide, by decide, rfl, rfl⟩

theorem witness_ChecksumBounds : 3 ≤ (3 : Byte).toNat ∧ (3 : Byte).toNat ≤ 60 ∧ [(0 : Byte)].length + 2 = (3 : Byte).toNat
    ∧ 3 ≤ (60 : Byte).toNat ∧ (60 : Byte).toNat ≤ 60 ∧ (List.replicate 58 (0xFF : Byte)).length + 2 = (60 : Byte).toNat := by
  decide

theorem witness_StepRunsTheDecodedOperations :
    (decodeEdge (nextEdge (driven base 0b0001 0xAB))).alongside = false
    ∧ (decodeEdge (nextEdge (driven base 0b0011 0xAB))).alongside = true
    ∧ (∃ t, exec (decodeEdge (nextEdge (driven base 0b0011 0xAB))).main (takeEdge (driven base 0b0011 0xAB)) = .next t)
    ∧ exec (decodeEdge (nextEdge (driven (inBody 3 3 0 0) 0b0011 0))).main (takeEdge (driven (inBody 3 3 0 0) 0b0011 0))
        = .fault .noByteClass := ⟨by decide, by decide, ⟨_, rfl⟩, rfl⟩

theorem witness_DecodeOnTheFrameEdgeReadsTheOldFrame : ∃ t u, step (driven (inBody 3 2 0x17B 1) 0b0011 0x7B) = .next t
    ∧ (nextEdge (driven (inBody 3 2 0x17B 1) 0b0011 0x7B)).opw = 0b0011 ∧ t.ev.evStb = true ∧ t.ev.lastEv = 1
    ∧ exec .decode (takeEdge (driven (inBody 3 2 0x17B 1) 0b0011 0x7B)) = .next u :=
  ⟨_, _, rfl, by decide, by decide, by decide, rfl⟩

theorem witness_FramePublicationIsAtomic :
    (∃ t, step (driven (inBody 3 2 0x17B 1) 0b0001 0x7B) = .next t ∧ t.ev.lastEv = 1)
    ∧ (nextEdge (driven (inBody 3 2 0x17B 1) 0b0001 0x7B)).opw.getLsbD 3 = false
    ∧ ∃ t, step (driven (inBody 3 2 0x17B 1) 0b0001 0x7C) = .next t ∧ t.ev.lastEv = 3 :=
  ⟨⟨_, rfl, by decide⟩, by decide, _, rfl, by decide⟩

theorem witness_ResultPublicationIsAtomic :
    (∃ t, step (driven base 0b0001 0xAB) = .next t ∧ (nextEdge (driven base 0b0001 0xAB)).opw.getLsbD 3 = false
      ∧ (nextEdge (driven base 0b0001 0xAB)).opw.getLsbD 1 = false)
    ∧ ∃ t, step (driven base 0b0011 0xAB) = .next t ∧ (nextEdge (driven base 0b0011 0xAB)).opw.getLsbD 3 = false
      ∧ (nextEdge (driven base 0b0011 0xAB)).opw.getLsbD 1 = true := ⟨⟨_, rfl, by decide⟩, _, rfl, by decide⟩

theorem witness_EventsAreRecorded :
    (∃ t, step (driven base 0b0001 0xAB) = .next t ∧ (nextEdge (driven base 0b0001 0xAB)).opw.getLsbD 3 = false
      ∧ t.ev.evStb = false)
    ∧ ∃ t, step (driven (inSt 2) 0b0001 0) = .next t ∧ (nextEdge (driven (inSt 2) 0b0001 0)).opw.getLsbD 3 = false
      ∧ t.ev.evStb = true := ⟨⟨_, rfl, by decide⟩, _, rfl, by decide⟩

theorem witness_EventLeavesItsRegisters :
    (∃ t, step (driven (inBody 3 2 0x17B 1) 0b0001 0x7B) = .next t ∧ t.ev.evStb = true ∧ t.ev.lastEv = 1)
    ∧ (∃ t, step (driven (inSt 2) 0b0001 2) = .next t ∧ t.ev.evStb = true ∧ t.ev.lastEv = 2)
    ∧ (∃ t, step (driven (inBody 3 2 0x17B 1) 0b0001 0x7C) = .next t ∧ t.ev.evStb = true ∧ t.ev.lastEv = 3)
    ∧ (∃ t, step (driven (inSt 6) 0b0000 0) = .next t ∧ t.ev.evStb = true ∧ t.ev.lastEv = 4)
    ∧ (driven (inBody 3 2 0x17B 1) 0b0001 0x7B).Inv ∧ (driven (inBody 3 2 0x17B 1) 0b0001 0x7C).Inv :=
  ⟨⟨_, rfl, by decide⟩, ⟨_, rfl, by decide⟩, ⟨_, rfl, by decide⟩, ⟨_, rfl, by decide⟩, body_inv_driven _ _,
    body_inv_driven _ _⟩

theorem witness_TablesNeverChange : ∃ t, step (driven base 0b1000 0) = .next t := ⟨_, rfl⟩

theorem witness_SynchronizerIgnoresTheResult : (Instr.idle ≠ .reset ∧ Instr.idle ≠ .decode ∧ ∃ t, exec .idle base = .next t)
    ∧ (Instr.push 0 ≠ .reset ∧ Instr.push 0 ≠ .decode ∧ exec (.push 0) (inBody 3 3 0 0) = .fault .noByteClass)
    ∧ Instr.bHdr2 ≠ .reset ∧ Instr.bHdr2 ≠ .decode ∧ exec .bHdr2 base = .refused .classNotSelected :=
  ⟨⟨by decide, by decide, _, rfl⟩, ⟨by decide, by decide, rfl⟩, by decide, by decide, rfl⟩

theorem witness_ExactlyOneByteClass : (5 : BitVec 3).toNat ≤ 5
    ∧ ((3 : BitVec 3) = 3 → (classCtx (inBody 3 2 0 0)).cnt.toNat < (classCtx (inBody 3 2 0 0)).len.toNat) := by decide

theorem witness_DecodeOfEncode : (Instr.bLenOk 3).wf = true ∧ (Instr.bLenOk 3).fits (tableCtx 0) = true
    ∧ (Instr.bCkloOk 0x7B).wf = true ∧ (Instr.bCkloOk 0x7B).fits (classCtx (inBody 3 2 0x17B 1)) = true := by decide

theorem witness_EncodeOfDecode : decode (tableCtx 0) (.op 0b1011 7) = .ok .reset
    ∧ decode (tableCtx 0) (.sb 0x4AB) = .ok (.bHdr1Resident 0) := ⟨rfl, rfl⟩

theorem witness_PlacedWordRuns : decodeTableWord 16 0x1AB = some .bRehunt
    ∧ decodeTableWord 8 1 = some (.push 0) ∧ (8 ≤ 8 → Instr.push 0 ≠ .decode → 1 &&& 0b1010 ≠ 0b0010) := by decide

theorem witness_StepKeepsTheInvariant : (driven (inBody 3 2 0x17B 1) 0b0011 0x7B).Inv
    ∧ ∃ t, step (driven (inBody 3 2 0x17B 1) 0b0011 0x7B) = .next t := ⟨body_inv_driven _ _, _, rfl⟩

theorem witness_EveryEdgeIsTaken : (driven (inBody 3 2 0x17B 1) 0b1111 0xAB).Inv := body_inv_driven _ _

/-- The edges of V-S1's frame with an IDLE, a DECODE and a PUSH with DECODE among them, without the last one. -/
def mixedEdges : List Edge :=
  [{ opw := 0b0001, inByte := 0xAB }, { opw := 0b0000, inByte := 0xAB }, { opw := 0b0011, inByte := 0xCD },
   { opw := 0b0001, inByte := 3 }, { opw := 0b0010, inByte := 0xFF }, { opw := 0b0001, inByte := 0 },
   { opw := 0b0001, inByte := 1 }]

/-- A matching checksum and one that does not match, from each of the three states. -/
theorem witness_FrameAcceptance : ((inSt 0).sync.st = 0 ∨ (inSt 0).sync.st = 4 ∨ (inSt 0).sync.st = 5)
    ∧ ((inSt 4).sync.st = 0 ∨ (inSt 4).sync.st = 4 ∨ (inSt 4).sync.st = 5)
    ∧ ((inSt 5).sync.st = 0 ∨ (inSt 5).sync.st = 4 ∨ (inSt 5).sync.st = 5)
    ∧ 3 ≤ (3 : Byte).toNat ∧ (3 : Byte).toNat ≤ 60 ∧ [(0 : Byte)].length + 2 = (3 : Byte).toNat
    ∧ (∀ b : Fin 2, ∀ e ∈ mixedEdges ++ [{ opw := 0b0011, inByte := 0x7B + BitVec.ofNat 8 b }],
        e.opw.getLsbD 3 = false ∧ e.opw.getLsbD 2 = false)
    ∧ presentedBytes (mixedEdges ++ [{ opw := 0b0011, inByte := 0x7B }]) = frameBytes 3 [0] 1 0x7B
    ∧ presentedBytes (mixedEdges ++ [{ opw := 0b0011, inByte := 0x7C }]) = frameBytes 3 [0] 1 0x7C
    ∧ ({ inSt 0 with inputs := mixedEdges ++ [{ opw := 0b0011, inByte := 0x7B }] } : State).inputs
        = mixedEdges ++ { opw := 0b0011, inByte := 0x7B } :: []
    ∧ joinBytes 1 0x7B = cks 3 [0] ∧ joinBytes 1 0x7C ≠ cks 3 [0] := by decide

theorem witness_HeaderSearchRecovers :
    (∃ t, step (driven (inSt 6) 0b0000 0) = .next t ∧ t.ev.evStb = true)
    ∧ (∃ t, exec (.bNoise 0) base = .next t) ∧ (∃ t, exec (.bNoiseResident 0 0) (inSt 4) = .next t)
    ∧ (∃ t, exec (.bResync 0) (inSt 1) = .next t)
    ∧ (inSt 1).sync.st = 1
      ∧ ({ inSt 1 with inputs := pushEdges [0xAB, 0xCD] } : State).inputs = pushEdges [0xAB, 0xCD] ++ [] :=
  ⟨⟨_, rfl, by decide⟩, ⟨_, rfl⟩, ⟨_, rfl⟩, ⟨_, rfl⟩, by decide, by decide⟩

/-- Tables that meet R7, with either value of H2_REHUNT. -/
theorem witness_ResetMeetsTheInvariant : (inSt 6).params.legal = true
    ∧ ({ base with params := { Config.fixture with h2Rehunt := true } } : State).params.legal = true := by decide

theorem witness_FragmentationDoesNotMatter : (inBody 3 1 0x17B 0).Inv := body_inv.1

end Sys2Proof.Tests
end

/-! The frame of ABUF and FBUF: what the bytes of the two buffers are read from, and the operations that leave it alone. -/

namespace Sys2Proof.Machine

/-- `t` has all that `s` has of what ABUF and FBUF are read from: the stored bytes, the frame registers, and the draws that stand
for unspecified bytes (log entry 3). -/
structure KeepsBuffers (s t : State) : Prop where
  abuf : t.sync.abuf = s.sync.abuf
  frame : t.frame = s.frame
  abufDraw : t.abufDraw = s.abufDraw
  fbufDraw : t.fbufDraw = s.fbufDraw

namespace KeepsBuffers
variable {s u t : State}

theorem abufByte_eq (h : KeepsBuffers s t) (a : Nat) : abufByte t a = abufByte s a := by
  rw [abufByte, abufByte, h.abuf, h.abufDraw]

theorem hostReadFbuf_eq (h : KeepsBuffers s t) (a : Nat) : hostReadFbuf t a = hostReadFbuf s a := by
  simp only [hostReadFbuf, fbufByte, h.frame, h.fbufDraw]

/-- An edge's event record is no part of the buffers (R100). -/
theorem after_recordEvent (e : Option Event) (h : KeepsBuffers s u) : KeepsBuffers s (recordEvent e u) where
  abuf := by rw [recordEvent_sync, h.abuf]
  frame := by rw [recordEvent_frame, h.frame]
  abufDraw := by rw [recordEvent_abufDraw, h.abufDraw]
  fbufDraw := by rw [recordEvent_fbufDraw, h.fbufDraw]

theorem after_noDecode (h : KeepsBuffers s u) : KeepsBuffers s (noDecode u) := ⟨h.abuf, h.frame, h.abufDraw, h.fbufDraw⟩

/-- The MR registers are no part of the buffers (R82). -/
theorem after_meas (h : KeepsBuffers s u) (m : Meas) : KeepsBuffers s { u with meas := m } :=
  ⟨h.abuf, h.frame, h.abufDraw, h.fbufDraw⟩

theorem of_finish {e : Option Event} (h : finish e u = .next t) (hu : KeepsBuffers s u) : KeepsBuffers s t := by
  rw [finish_next h]
  exact (hu.after_recordEvent e).after_noDecode

/-- A byte-class row keeps the buffers where its register update does. -/
theorem of_row {st : BitVec 3} {b : Byte} {k : ByteClass} {e : Option Event}
    (h : ifSelected s st b k (finish e u) = .next t) (hu : KeepsBuffers s u) : KeepsBuffers s t :=
  of_finish (ifSelected_next h).2.2 hu

end KeepsBuffers

theorem keepsBuffers_setSt (s : State) (v : BitVec 3) : KeepsBuffers s (setSt v s) := ⟨rfl, rfl, rfl, rfl⟩

theorem keepsBuffers_recoverSt (s : State) : KeepsBuffers s (recoverSt s) :=
  (keepsBuffers_setSt s 5).after_recordEvent _

theorem keepsBuffers_idleSync (s : State) : KeepsBuffers s (idleSync s) := by
  unfold idleSync
  split
  · exact keepsBuffers_recoverSt s
  · exact .after_recordEvent none ⟨rfl, rfl, rfl, rfl⟩

/-- Settles O18, operation by operation: what each of them updates is no part of the buffers. -/
theorem storingNothingKeepsTheBuffers : Obligations.StoringNothingKeepsTheBuffers := by
  unfold Obligations.StoringNothingKeepsTheBuffers
  intro s t i h hi
  suffices hk : KeepsBuffers s t from fun a => ⟨hk.abufByte_eq a, hk.hostReadFbuf_eq a⟩
  cases i <;> simp only [exec] at h
  case reset | push | bData | bCkloOk => exact hi.elim
  case clear => exact .of_finish h ⟨rfl, rfl, rfl, rfl⟩
  case decode => cases h; exact (keepsBuffers_idleSync s).after_meas _
  case idle => cases h; exact (keepsBuffers_idleSync s).after_noDecode
  case bHdr1 | bHdr1Resident | bNoise | bNoiseResident | bHdr2 | bRehunt | bResync => exact .of_row h (keepsBuffers_setSt s _)
  case bLenOk | bLenErr | bCkhi | bCkloBad => exact .of_row h ⟨rfl, rfl, rfl, rfl⟩
  case stIllegal =>
    obtain ⟨-, -, h⟩ := ifSelected_next h
    cases h
    exact (keepsBuffers_recoverSt s).after_noDecode

end Sys2Proof.Machine

/-! One edge: what `performOps` answers for the operations its word selects (R59). -/

namespace Sys2Proof.Machine

/-- DECODE has a next state from every state (R82, R105: an error is a result too). -/
theorem exec_decode (s : State) : exec .decode s = .next { idleSync s with meas := decodedMeas s } := rfl

theorem step_of_not_alongside {s : State} (h : (decodeEdge (nextEdge s)).alongside = false) :
    step s = exec (decodeEdge (nextEdge s)).main (takeEdge s) := by
  simp [step, performOps, h]

theorem step_of_alongside {s : State} (h : (decodeEdge (nextEdge s)).alongside = true) :
    step s = alongside (exec (decodeEdge (nextEdge s)).main (takeEdge s)) (exec .decode (takeEdge s)) := by
  simp [step, performOps, h]

/-- Settles O31: DECODE always goes on, so the other operation alone decides how the edge ends. -/
theorem stepRunsTheDecodedOperations : Obligations.StepRunsTheDecodedOperations := by
  unfold Obligations.StepRunsTheDecodedOperations
  refine fun s => ⟨step_of_not_alongside, fun ha => ⟨_, exec_decode _, fun t h => ?_, fun r h => ?_⟩⟩
  · rw [step_of_alongside ha, h, exec_decode]
    rfl
  · rw [step_of_alongside ha, h, exec_decode]
    rfl

end Sys2Proof.Machine

/-! What a successful DECODE writes: the operands it found, and the ranges of their values (R30, R58, R88 to R93). -/

namespace Sys2Proof.Machine

/-- The operands of the measurement payload `d` under the tables `p`, where every step of R82 finds its own: the mode `m`, the
class `k` and value `v` of the display text, and the unit `u` (R84 to R91). -/
structure Operands (p : Params) (d : Nat → Byte) (m : String) (k : MeasClass) (v : Decimal) (u : String) : Prop where
  mode : p.mode (d 0).toNat = some m
  text : classifyText (strip (displayOf d).toList) = some (k, v)
  unit : p.unit m (d 1) = some u

/-- The field registers that the operands give (R84 to R96). -/
def operandFields (p : Params) (d : Nat → Byte) (k : MeasClass) (v : Decimal) (u : String) : Fields :=
  fieldsOf d k (scale p k v u).1 (scale p k v u).2

theorem decodePayload_ok {p : Params} {d : Nat → Byte} {f : Fields} (h : decodePayload p d = .ok f) :
    ∃ m k v u, Operands p d m k v u ∧ f = operandFields p d k v u := by
  unfold decodePayload at h
  split at h
  next => cases h
  next m hm =>
    split at h
    next => cases h
    next k v ht =>
      split at h
      next => cases h
      next u hu => exact ⟨m, k, v, u, ⟨hm, ht, hu⟩, (Except.ok.inj h).symm⟩

/-- The two ways a DECODE ends (R97). -/
theorem decodedMeas_cases (s : State) :
    (∃ e, decodedMeas s = writeResult s.frame.fseq (.error e))
    ∨ ∃ m k v u, Operands s.params (fbufByte s) m k v u
        ∧ decodedMeas s = writeResult s.frame.fseq (.ok (operandFields s.params (fbufByte s) k v u)) := by
  unfold decodedMeas
  cases h : decodeFrame s with
  | error e => exact .inl ⟨e, rfl⟩
  | ok f =>
    have hp : decodePayload s.params (fbufByte s) = .ok f := by
      unfold decodeFrame at h
      split at h
      · exact h
      · cases h
    obtain ⟨m, k, v, u, ho, rfl⟩ := decodePayload_ok hp
    exact .inr ⟨m, k, v, u, ho, rfl⟩

theorem decodedMeas_valid {s : State} (h : (decodedMeas s).valid = true) :
    ∃ m k v u, Operands s.params (fbufByte s) m k v u
      ∧ decodedMeas s = writeResult s.frame.fseq (.ok (operandFields s.params (fbufByte s) k v u)) := by
  rcases decodedMeas_cases s with ⟨e, he⟩ | ho
  · rw [he] at h
    cases h
  · exact ho

theorem classCode_eq_two {k : MeasClass} (h : classCode k = 2) : k = .ncv := by
  revert h
  cases k <;> decide

theorem classCode_ne_three (k : MeasClass) : classCode k ≠ 3 := by
  cases k <;> decide

theorem ncvOrdinal_le {t : List Byte} {n : Nat} (h : ncvOrdinal t = some n) : n ≤ 5 := by
  obtain ⟨hn, -, -⟩ := List.findIdx?_eq_some_iff_getElem.mp h
  exact Nat.le_of_lt_succ hn

theorem spanDigits_eq (t : List Byte) : spanDigits t = (t.takeWhile isDigit, t.dropWhile isDigit) := by
  induction t with
  | nil => rfl
  | cons b t ih => cases hb : isDigit b <;> simp [spanDigits, hb, ih]

/-- A run of `n` digits spells a number below `10 ^ n`. -/
theorem digitsValue_lt (ds : List Byte) (h : ds.all isDigit = true) : digitsValue ds < 10 ^ ds.length := by
  induction ds using List.reverseRecOn with
  | nil => decide
  | append_singleton ds b ih =>
    simp only [List.all_append, List.all_cons, List.all_nil, Bool.and_true, Bool.and_eq_true] at h
    obtain ⟨hds, hb⟩ := h
    have hv := ih hds
    have hd : b.toNat ≤ 0x39 := by simp only [isDigit, Bool.and_eq_true, decide_eq_true_eq] at hb; exact hb.2
    have he : digitsValue (ds ++ [b]) = 10 * digitsValue ds + (b.toNat - 0x30) := by simp [digitsValue]
    rw [he, List.length_append, List.length_singleton, Nat.pow_succ]
    omega

theorem splitSign_length_le (t : List Byte) : (splitSign t).2.length ≤ t.length := by
  cases t with
  | nil => exact Nat.le_refl _
  | cons b t =>
    simp only [splitSign]
    split
    · exact Nat.le_succ _
    · split
      · exact Nat.le_succ _
      · exact Nat.le_refl _

/-- A mantissa's integer and fraction parts are digits of the text, and the fraction is shorter than the text: the point or an
integer digit stands before it (R58). -/
theorem splitMantissa_some {t ip fp : List Byte} (h : splitMantissa t = some (ip, fp)) :
    (ip ++ fp).all isDigit = true ∧ (ip ++ fp).length ≤ t.length ∧ fp.length < t.length := by
  have hall : (t.takeWhile isDigit).all isDigit = true := by simp
  have happ : (t.takeWhile isDigit).length + (t.dropWhile isDigit).length = t.length := by
    rw [← List.length_append, List.takeWhile_append_dropWhile]
  simp only [splitMantissa, spanDigits_eq] at h
  split at h
  next hrest =>
    split at h
    next => cases h
    next hne =>
      cases h
      have hpos := List.length_pos_iff.mpr (mt List.isEmpty_iff.mpr hne)
      simp only [List.append_nil, List.length_nil]
      exact ⟨hall, by omega, by omega⟩
  next p frac hrest =>
    split at h
    next hp =>
      cases h
      rw [hrest, List.length_cons] at happ
      rw [List.all_append, Bool.and_eq_true, List.length_append]
      exact ⟨⟨hall, hp.2.1⟩, by omega, by omega⟩
    next => cases h

/-- A literal of at most seven characters has at most seven digits, at most six of them after the point (R90). -/
theorem parseLiteral_range {t : List Byte} {v : Decimal} (h : parseLiteral t = some v) (hl : t.length ≤ 7) :
    v.mant ≤ 9999999 ∧ -6 ≤ v.exp ∧ v.exp ≤ 0 := by
  unfold parseLiteral at h
  split at h
  next => cases h
  next ip fp hs =>
    cases h
    obtain ⟨hdig, hlen, hfp⟩ := splitMantissa_some hs
    have hsign := splitSign_length_le t
    have hval := digitsValue_lt _ hdig
    have hpow : 10 ^ (ip ++ fp).length ≤ 10 ^ 7 := Nat.pow_le_pow_right (by decide) (by omega)
    refine ⟨?_, ?_, ?_⟩ <;> dsimp only <;> omega

/-- A display text has at most seven characters (R52, R87). -/
theorem strip_displayOf_length_le (d : Nat → Byte) : (strip (displayOf d).toList).length ≤ 7 :=
  List.length_filter_le _ _

/-- The three ways a display text gets its class, in their order (R88 to R90). -/
theorem classifyText_cases {t : List Byte} {k : MeasClass} {v : Decimal} (h : classifyText t = some (k, v)) :
    (t ∈ ovlSet ∧ k = .ovl ∧ v = { neg := false, mant := 0, exp := 0 })
    ∨ (t ∉ ovlSet ∧ ∃ n, ncvOrdinal t = some n ∧ k = .ncv ∧ v = { neg := false, mant := n, exp := 0 })
    ∨ (t ∉ ovlSet ∧ ncvOrdinal t = none ∧ parseLiteral t = some v ∧ k = .num) := by
  unfold classifyText at h
  split at h
  next ho => cases h; exact .inl ⟨ho, rfl, rfl⟩
  next ho =>
    split at h
    next n hn => cases h; exact .inr (.inl ⟨ho, n, hn, rfl, rfl⟩)
    next hn =>
      obtain ⟨w, hw, hv⟩ := Option.map_eq_some_iff.mp h
      cases hv
      exact .inr (.inr ⟨ho, hn, hw, rfl⟩)

theorem classifyText_ncv_mant_le {t : List Byte} {v : Decimal} (h : classifyText t = some (.ncv, v)) : v.mant ≤ 5 := by
  rcases classifyText_cases h with ⟨-, hk, -⟩ | ⟨-, n, hn, -, rfl⟩ | ⟨-, -, -, hk⟩
  · cases hk
  · exact ncvOrdinal_le hn
  · cases hk

theorem classifyText_range {t : List Byte} {k : MeasClass} {v : Decimal} (h : classifyText t = some (k, v))
    (hl : t.length ≤ 7) : v.mant ≤ 9999999 ∧ -6 ≤ v.exp ∧ v.exp ≤ 0 := by
  rcases classifyText_cases h with ⟨-, -, rfl⟩ | ⟨-, n, hn, -, rfl⟩ | ⟨-, -, hv, -⟩
  · decide
  · have hle := ncvOrdinal_le hn
    refine ⟨?_, ?_, ?_⟩ <;> dsimp only <;> omega
  · exact parseLiteral_range hv hl

@[simp] theorem scale_mant (p : Params) (k : MeasClass) (v : Decimal) (u : String) : (scale p k v u).1.mant = v.mant := by
  unfold scale
  split
  · rfl
  · split <;> rfl

/-- The exponents of a legal EXP_TABLE (R7). -/
theorem legal_exp_range {p : Params} {u : String} {e : Int} (hp : p.legal = true) (h : p.exp u = some e) :
    -9 ≤ e ∧ e ≤ 6 := by
  obtain ⟨c, hc, rfl⟩ := Option.map_eq_some_iff.mp h
  simp only [Params.legal, Bool.and_eq_true, List.all_eq_true] at hp
  have hentry := hp.2 c (List.mem_of_find?_eq_some hc)
  simp only [Params.legalExpEntry, Bool.and_eq_true, List.contains_iff_mem] at hentry
  have hmem := hentry.1
  generalize c.2 = e at hmem
  revert e
  decide

/-- Scaling adds the unit's exponent, at least -9 and at most 6 (R92). -/
theorem scale_exp_range {p : Params} (hp : p.legal = true) (k : MeasClass) {v : Decimal} (u : String)
    (hlo : -6 ≤ v.exp) (hhi : v.exp ≤ 0) : -15 ≤ (scale p k v u).1.exp ∧ (scale p k v u).1.exp ≤ 6 := by
  unfold scale
  split
  · constructor <;> dsimp only <;> omega
  · split
    next e he =>
      have := legal_exp_range hp he
      constructor <;> dsimp only <;> omega
    next => constructor <;> dsimp only <;> omega

theorem progressOf_le (d9 d10 : Byte) : (progressOf d9 d10).toNat ≤ 2805 := by
  have h9 : d9.toNat % 2 ^ 12 ≤ 255 := (Nat.mod_le _ _).trans (Nat.le_of_lt_succ d9.isLt)
  have h10 : d10.toNat % 2 ^ 12 ≤ 255 := (Nat.mod_le _ _).trans (Nat.le_of_lt_succ d10.isLt)
  have hmul : d9.toNat % 2 ^ 12 * 10 % 2 ^ 12 ≤ d9.toNat % 2 ^ 12 * 10 := Nat.mod_le _ _
  simp only [progressOf, BitVec.toNat_add, BitVec.toNat_mul, BitVec.toNat_setWidth]
  calc (d9.toNat % 2 ^ 12 * 10 % 2 ^ 12 + d10.toNat % 2 ^ 12) % 2 ^ 12
      ≤ d9.toNat % 2 ^ 12 * 10 % 2 ^ 12 + d10.toNat % 2 ^ 12 := Nat.mod_le _ _
    _ ≤ 2805 := by omega

/-- A mantissa in its range fits MR_MANT (R30). -/
theorem mantBits_toNat {n : Nat} (h : n ≤ 9999999) : (BitVec.ofNat 24 n).toNat = n := by
  rw [BitVec.toNat_ofNat]
  omega

/-- An exponent in its range fits MR_EXP (R30). -/
theorem expBits_toInt {e : Int} (hlo : -15 ≤ e) (hhi : e ≤ 6) : (BitVec.ofInt 5 e).toInt = e :=
  BitVec.toInt_ofInt_eq_self (by decide) (by omega) (by omega)

namespace Operands
variable {p : Params} {d : Nat → Byte} {m u : String} {k : MeasClass} {v : Decimal}

theorem mant_le (h : Operands p d m k v u) : v.mant ≤ 9999999 :=
  (classifyText_range h.text (strip_displayOf_length_le d)).1

theorem exp_range (h : Operands p d m k v u) : -6 ≤ v.exp ∧ v.exp ≤ 0 :=
  (classifyText_range h.text (strip_displayOf_length_le d)).2

/-- In class NCV the field MR_MANT is the ordinal (R89). -/
theorem ncv_mant_le (h : Operands p d m k v u) (hk : classCode k = 2) : (BitVec.ofNat 24 v.mant).toNat ≤ 5 := by
  have hv : v.mant ≤ 5 := classifyText_ncv_mant_le (classCode_eq_two hk ▸ h.text)
  rw [mantBits_toNat (by omega)]
  exact hv

end Operands

section derivedOutputs
variable {t : State}

theorem outMode_of_valid (h : t.meas.valid = true) : outMode t = t.params.mode t.meas.fields.modeIdx.toNat := if_pos h

theorem outText_of_valid (h : t.meas.valid = true) : outText t = some (strip t.meas.fields.disp.toList) := if_pos h

theorem outUnitRes_of_mode {m : String} (h : outMode t = some m) :
    outUnitRes t = t.params.unit m t.meas.fields.range := by
  rw [outUnitRes, h]

theorem outUnit_of_unitRes {u : String} (h : outUnitRes t = some u) :
    outUnit t = some (if t.meas.fields.strip then drop1 u else u) := by
  rw [outUnit, h, Option.map_some]

theorem outNcvOrd_of_ncv (h : t.meas.valid = true) (hc : t.meas.fields.cls = 2) : outNcvOrd t = some t.meas.fields.mant :=
  if_pos ⟨h, hc⟩

/-- No derived output without a successful DECODE (R32). -/
theorem outputs_of_not_valid (h : t.meas.valid = false) :
    outMode t = none ∧ outText t = none ∧ outUnitRes t = none ∧ outUnit t = none ∧ outNcvOrd t = none := by
  have hm : outMode t = none := by simp [outMode, h]
  have hu : outUnitRes t = none := by rw [outUnitRes, hm]
  exact ⟨hm, by simp [outText, h], hu, by rw [outUnit, hu, Option.map_none], by simp [outNcvOrd, h]⟩

end derivedOutputs

@[simp] theorem idleSync_params (s : State) : (idleSync s).params = s.params := by
  unfold idleSync
  split
  · rfl
  · exact recordEvent_params _ _

/-- Settles O27: the derived outputs read back the operands that the DECODE found. -/
theorem derivedOutputsAreDefined : Obligations.DerivedOutputsAreDefined := by
  unfold Obligations.DerivedOutputsAreDefined
  refine ⟨fun s t h hv => ?_, fun t => outputs_of_not_valid⟩
  have hmeas := execDecode_meas h
  have hparams : t.params = s.params := by
    cases h
    exact idleSync_params s
  obtain ⟨m, k, v, u, ho, heq⟩ := decodedMeas_valid (hmeas ▸ hv)
  have hf : t.meas.fields = operandFields s.params (fbufByte s) k v u := by
    rw [hmeas, heq]
    rfl
  have hmode : outMode t = some m := by
    rw [outMode_of_valid hv, hparams, hf]
    exact ho.mode
  have hunit : outUnitRes t = some u := by
    rw [outUnitRes_of_mode hmode, hparams, hf]
    exact ho.unit
  refine ⟨m, u, ho.mode, ho.unit, hmode, hunit, ?_, outUnit_of_unitRes hunit, congrArg Fields.modeIdx hf,
    congrArg Fields.range hf, fun hc => ⟨outNcvOrd_of_ncv hv hc, ?_⟩⟩
  · rw [outText_of_valid hv, hf]
    rfl
  · rw [hf] at hc ⊢
    simp only [operandFields, fieldsOf, scale_mant] at hc ⊢
    exact ho.ncv_mant_le hc

end Sys2Proof.Machine

/-! Inv is kept: first what each part of Inv reads, then what a synchronizer move, a DECODE and RESET make of each part. -/

namespace Sys2Proof.Machine
variable {s t u : State} {b : Byte}

theorem abufByte_congr (hs : t.sync.abuf = s.sync.abuf) (hd : t.abufDraw = s.abufDraw) : abufByte t = abufByte s := by
  funext i
  rw [abufByte, abufByte, hs, hd]

/-- BodyInv reads LEN, CNT, SUM and ABUF; for another CNT the number of data bytes must stay. -/
theorem BodyInv.congr (h : BodyInv s) (hl : t.sync.len = s.sync.len) (hm : t.sync.sum = s.sync.sum)
    (ha : t.sync.abuf = s.sync.abuf) (hd : t.abufDraw = s.abufDraw) (hn : dataCount t = dataCount s)
    (hc : t.sync.cnt.toNat < s.sync.len.toNat) : BodyInv t where
  len_ge := hl ▸ h.len_ge
  len_le := hl ▸ h.len_le
  cnt_lt := hl ▸ hc
  written := by rw [hn, ha]; exact h.written
  sum_eq := by rw [hm, hl, hn, abufByte_congr ha hd]; exact h.sum_eq

theorem SyncInv.congr (h : SyncInv s) (hs : t.sync = s.sync) (hd : t.abufDraw = s.abufDraw) : SyncInv t where
  st_legal := hs ▸ h.st_legal
  cnt_le := hs ▸ h.cnt_le
  abuf_wf := hs ▸ h.abuf_wf
  body ht :=
    have hb := h.body (hs ▸ ht)
    hb.congr (by rw [hs]) (by rw [hs]) (by rw [hs]) hd (by rw [dataCount, dataCount, hs]) (hs ▸ hb.cnt_lt)

theorem FrameInv.congr (h : FrameInv s) (hf : t.frame = s.frame) : FrameInv t where
  flen_none := hf ▸ h.flen_none
  flen_ge := hf ▸ h.flen_ge
  flen_le := hf ▸ h.flen_le
  fbuf_wf := hf ▸ h.fbuf_wf
  fbuf_keys := hf ▸ h.fbuf_keys

theorem CompleteInv.congr (h : CompleteInv s) (hs : t.sync = s.sync) (hf : t.frame = s.frame) : CompleteInv t where
  cnt_eq := hs ▸ h.cnt_eq
  ckrx_eq := hs ▸ h.ckrx_eq
  valid := hf ▸ h.valid
  flen_eq := by rw [hs, hf]; exact h.flen_eq

theorem EventInv.congr (h : EventInv s) (he : t.ev = s.ev) : EventInv t where
  code_le := he ▸ h.code_le
  strobe := he ▸ h.strobe

/-- MeasInv does not read MR_STB and MR_FSEQ. -/
theorem MeasInv.congr (h : MeasInv s) (hv : t.meas.valid = s.meas.valid) (he : t.meas.err = s.meas.err)
    (hf : t.meas.fields = s.meas.fields) (hp : t.params = s.params) : MeasInv t where
  err_le := he ▸ h.err_le
  ok_err := by rw [hv, he]; exact h.ok_err
  bad_zero := by rw [hv, hf]; exact h.bad_zero
  cls_ne := hf ▸ h.cls_ne
  mant_le := hf ▸ h.mant_le
  exp_ge := hf ▸ h.exp_ge
  exp_le := hf ▸ h.exp_le
  prog_le := hf ▸ h.prog_le
  unit_def := by
    have hu : outUnitRes t = outUnitRes s := by simp only [outUnitRes, outMode, hv, hf, hp]
    rw [hv, hu]
    exact h.unit_def
  ncv_ord := hf ▸ h.ncv_ord

/-- The host's edges still to come are no part of Inv. -/
theorem State.Inv.takeEdge (h : s.Inv) : (takeEdge s).Inv where
  legal := h.legal
  sync := h.sync.congr rfl rfl
  frame := h.frame.congr rfl
  complete ht := (h.complete ht).congr rfl rfl
  events := h.events.congr rfl
  meas := h.meas.congr rfl rfl rfl rfl

/-- `cks` of one byte more (R63, R72). -/
theorem cks_append (len : Byte) (d : List Byte) (b : Byte) : cks len (d ++ [b]) = cks len d + b.setWidth 16 := by
  simp [cks]

theorem cnt_succ_toNat {c : BitVec 6} (h : c.toNat < 63) : (c + 1).toNat = c.toNat + 1 := by
  rw [BitVec.toNat_add, show (1 : BitVec 6).toNat = 1 from rfl]
  omega

/-- The registers after B.LEN_OK (R70). -/
def Sync.lenOk (y : Sync) (b : Byte) : Sync := { y with len := b, cnt := 0, sum := headerSum b, st := 3 }

/-- The registers after B.DATA (R72). -/
def Sync.data (y : Sync) (b : Byte) : Sync :=
  { y with abuf := y.abuf.write y.cnt.toNat b, sum := y.sum + b.setWidth 16, cnt := y.cnt + 1 }

/-- The registers after B.CKHI (R73). -/
def Sync.ckhiHeld (y : Sync) (b : Byte) : Sync := { y with ckhi := b, cnt := y.cnt + 1 }

/-- With LEN accepted there are no data bytes yet, and SUM is the sum of the header and LEN (R70). -/
theorem bodyInv_lenOk (s : State) (hb : legalLen b = true) : BodyInv { s with sync := s.sync.lenOk b } := by
  obtain ⟨h3, h60⟩ := (legalLen_iff b).mp hb
  have hn : dataCount { s with sync := s.sync.lenOk b } = 0 := Nat.zero_min _
  exact {
    len_ge := h3
    len_le := h60
    cnt_lt := Nat.lt_of_lt_of_le (show 0 < 3 by decide) h3
    written := by rw [hn]; exact fun i hi => absurd hi (Nat.not_lt_zero i)
    sum_eq := by rw [hn]; rfl }

/-- A data byte goes to ABUF[CNT], behind those already there, and into SUM (R72). -/
theorem BodyInv.data (h : BodyInv s) (hc : s.sync.cnt.toNat + 2 < s.sync.len.toNat) :
    BodyInv { s with sync := s.sync.data b } := by
  have hlen := h.len_le
  have hcnt : (s.sync.cnt + 1).toNat = s.sync.cnt.toNat + 1 := cnt_succ_toNat (by omega)
  have hn : dataCount s = s.sync.cnt.toNat := Nat.min_eq_left (by omega)
  have hn' : dataCount { s with sync := s.sync.data b } = s.sync.cnt.toNat + 1 :=
    hcnt ▸ Nat.min_eq_left (show (s.sync.cnt + 1).toNat ≤ s.sync.len.toNat - 2 by omega)
  have hnew : abufByte { s with sync := s.sync.data b } s.sync.cnt.toNat = b := by
    simp [abufByte, Sync.data]
  have hold : ∀ i < s.sync.cnt.toNat, abufByte { s with sync := s.sync.data b } i = abufByte s i := fun i hi => by
    simp only [abufByte, Sync.data, lookup_write_other _ b (Nat.ne_of_lt hi)]
  exact {
    len_ge := h.len_ge
    len_le := hlen
    cnt_lt := show (s.sync.cnt + 1).toNat < s.sync.len.toNat by omega
    written := fun i hi => by
      rw [hn'] at hi
      rcases Nat.lt_succ_iff_lt_or_eq.mp hi with hlt | rfl
      · simp only [Sync.data, lookup_write_other _ b (Nat.ne_of_lt hlt)]
        exact h.written i (hn ▸ hlt)
      · simp [Sync.data]
    sum_eq := by
      have hmap : (List.range s.sync.cnt.toNat).map (abufByte { s with sync := s.sync.data b })
          = (List.range s.sync.cnt.toNat).map (abufByte s) :=
        List.map_congr_left fun i hi => hold i (List.mem_range.mp hi)
      rw [hn', List.range_succ, List.map_append, List.map_singleton, hnew, hmap, cks_append, ← hn]
      exact congrArg (· + b.setWidth 16) h.sum_eq }

/-- The checksum's high byte is no data byte: all LEN - 2 of them stand in ABUF already (R73). -/
theorem BodyInv.ckhiHeld (h : BodyInv s) (hc : s.sync.cnt.toNat + 2 = s.sync.len.toNat) :
    BodyInv { s with sync := s.sync.ckhiHeld b } := by
  have hlen := h.len_le
  have hcnt : (s.sync.cnt + 1).toNat = s.sync.cnt.toNat + 1 := cnt_succ_toNat (by omega)
  refine h.congr rfl rfl rfl rfl ?_ (show (s.sync.cnt + 1).toNat < s.sync.len.toNat by omega)
  show min (s.sync.cnt + 1).toNat (s.sync.len.toNat - 2) = min s.sync.cnt.toNat (s.sync.len.toNat - 2)
  omega

/-- Outside READ_BODY the invariant of the synchronizer is ranges alone. -/
theorem syncInv_of_not_body (v : BitVec 3) (hst : t.sync.st = v) (hv : v.toNat ≤ 5 ∧ v ≠ 3) (hcnt : t.sync.cnt.toNat ≤ 60)
    (hwf : t.sync.abuf.wf) : SyncInv t where
  st_legal := hst ▸ hv.1
  cnt_le := hcnt
  abuf_wf := hwf
  body h := absurd (hst.symm.trans h) hv.2

theorem syncInv_of_body (hst : t.sync.st = 3) (hb : BodyInv t) (hwf : t.sync.abuf.wf) : SyncInv t where
  st_legal := by rw [hst]; decide
  cnt_le := Nat.le_of_lt (Nat.lt_of_lt_of_le hb.cnt_lt hb.len_le)
  abuf_wf := hwf
  body _ := hb

theorem SyncInv.after_noDecode_recordEvent (h : SyncInv u) (e : Option Event) : SyncInv (noDecode (recordEvent e u)) :=
  h.congr (by simp) (by simp)

theorem eventCode_range (k : Event) : (eventCode k).toNat ≤ 4 ∧ eventCode k ≠ 0 := by
  cases k <;> decide

theorem recordEvent_some_lastEv (k : Event) (s : State) : (recordEvent (some k) s).ev.lastEv = eventCode k := by
  cases k <;> rfl

theorem EventInv.after_recordEvent (h : EventInv s) (e : Option Event) : EventInv (recordEvent e s) := by
  cases e with
  | none => exact ⟨h.code_le, fun hstb => nomatch hstb⟩
  | some k =>
    obtain ⟨hle, hne⟩ := eventCode_range k
    rw [← recordEvent_some_lastEv k s] at hle hne
    exact ⟨hle, fun _ => hne⟩

/-- The frame that B.CKLO_OK publishes (R22, R23, R74). -/
theorem frameInv_publish (h3 : 3 ≤ s.sync.len.toNat) (h60 : s.sync.len.toNat ≤ 60) : FrameInv (publish s) := by
  have hlen : (publish s).frame.flen.toNat = s.sync.len.toNat - 2 := flen_toNat h3 h60
  exact {
    flen_none := fun hv => nomatch hv
    flen_ge := fun _ => by omega
    flen_le := by omega
    fbuf_wf := publish_fbuf_wf s
    fbuf_keys := by rw [hlen]; exact abufCells_keys s _ }

/-- The last byte of a body brings CNT to LEN (R74, R75). -/
theorem SyncInv.cnt_full (h : SyncInv s) (h3 : s.sync.st = 3) (hc : s.sync.cnt.toNat + 1 = s.sync.len.toNat) :
    (s.sync.cnt + 1).toNat = s.sync.len.toNat ∧ s.sync.len.toNat ≤ 60 := by
  have hlen := (h.body h3).len_le
  exact ⟨(cnt_succ_toNat (by omega)).trans hc, hlen⟩

namespace SyncMove

/-- R15, R17, R18 and R43 after each move. -/
theorem syncInv (m : SyncMove s b t) (h : SyncInv s) : SyncInv t := by
  cases m
  case clear => exact syncInv_of_not_body 0 rfl (by decide) (Nat.zero_le 60) h.abuf_wf
  case idle => exact h.after_noDecode_recordEvent none
  case recover => exact syncInv_of_not_body 5 rfl (by decide) h.cnt_le h.abuf_wf
  case hunt v hv => exact syncInv_of_not_body v rfl (by rcases hv with rfl | rfl | rfl <;> decide) h.cnt_le h.abuf_wf
  case lenOk hb =>
    apply SyncInv.after_noDecode_recordEvent
    exact syncInv_of_body rfl (bodyInv_lenOk s hb) h.abuf_wf
  case lenErr => exact syncInv_of_not_body 5 rfl (by decide) h.cnt_le h.abuf_wf
  case data h3 hc hlt =>
    apply SyncInv.after_noDecode_recordEvent
    exact syncInv_of_body h3 ((h.body h3).data hc) (write_wf _ _ h.abuf_wf)
  case ckhi h3 hc =>
    apply SyncInv.after_noDecode_recordEvent
    exact syncInv_of_body h3 ((h.body h3).ckhiHeld hc) h.abuf_wf
  case ckloOk h3 hc hle hsum =>
    obtain ⟨hcnt, hlen⟩ := h.cnt_full h3 hc
    exact syncInv_of_not_body 4 rfl (by decide) (hcnt.trans_le hlen) h.abuf_wf
  case ckloBad h3 hc hsum =>
    obtain ⟨hcnt, hlen⟩ := h.cnt_full h3 hc
    exact syncInv_of_not_body 5 rfl (by decide) (hcnt.trans_le hlen) h.abuf_wf

/-- Only a frame that completes is published (R40). -/
theorem frame_cases (m : SyncMove s b t) : t.frame = s.frame ∨ s.sync.st = 3 ∧ t.frame = (publish s).frame := by
  cases m
  case ckloOk h3 hc hle hsum => exact .inr ⟨h3, rfl⟩
  all_goals exact .inl rfl

theorem frameInv (m : SyncMove s b t) (hs : SyncInv s) (h : FrameInv s) : FrameInv t := by
  rcases m.frame_cases with hf | ⟨h3, hf⟩
  · exact h.congr hf
  · have hb := hs.body h3
    exact (frameInv_publish hb.len_ge hb.len_le).congr hf

/-- COMPLETE is entered by B.CKLO_OK alone, and stays as it is on an edge that does nothing (R74, R79). -/
theorem completeInv (m : SyncMove s b t) (hs : SyncInv s) (h : s.sync.st = 4 → CompleteInv s) (h4 : t.sync.st = 4) :
    CompleteInv t := by
  cases m
  case idle => exact (h h4).congr rfl rfl
  case ckloOk h3 hc hle hsum =>
    have hb := hs.body h3
    have hge := hb.len_ge
    exact {
      cnt_eq := (hs.cnt_full h3 hc).1
      ckrx_eq := hsum.symm
      valid := rfl
      flen_eq := by
        have hlen : (publish s).frame.flen.toNat = s.sync.len.toNat - 2 := flen_toNat hge hb.len_le
        show (publish s).frame.flen.toNat + 2 = s.sync.len.toNat
        omega }
  case data h3 _ _ | ckhi h3 _ => simp [h3] at h4
  case hunt v hv => rcases hv with rfl | rfl | rfl <;> simp at h4
  case recover => simp [recoverSt_eq] at h4
  case clear | lenOk | lenErr | ckloBad => simp at h4

/-- A move records at most one event, on event registers that nothing else writes (R100). -/
theorem records (m : SyncMove s b t) : ∃ e u, t = noDecode (recordEvent e u) ∧ u.ev = s.ev := by
  cases m <;> exact ⟨_, _, rfl, rfl⟩

theorem eventInv (m : SyncMove s b t) (h : EventInv s) : EventInv t := by
  obtain ⟨e, u, rfl, hu⟩ := m.records
  exact ((h.congr hu).after_recordEvent e).congr rfl

theorem params_eq (m : SyncMove s b t) : t.params = s.params := by
  cases m <;> rfl

/-- MR_STB is the only MR register that a move without DECODE writes (R82). -/
theorem meas_eq (m : SyncMove s b t) : t.meas = { s.meas with stb := false } := by
  cases m <;> rfl

/-- A move of the synchronizer keeps Inv. -/
theorem inv (m : SyncMove s b t) (h : s.Inv) : t.Inv where
  legal := m.params_eq ▸ h.legal
  sync := m.syncInv h.sync
  frame := m.frameInv h.sync h.frame
  complete := m.completeInv h.sync h.complete
  events := m.eventInv h.events
  meas := h.meas.congr (by rw [m.meas_eq]) (by rw [m.meas_eq]) (by rw [m.meas_eq]) m.params_eq

end SyncMove

/-- A failed DECODE, and RESET, leave every field 0 (R97, R112). -/
theorem measInv_of_zero (he : t.meas.err.toNat ≤ 4) (hv : t.meas.valid = false) (hf : t.meas.fields = Fields.zero) :
    MeasInv t where
  err_le := he
  ok_err h := nomatch hv.symm.trans h
  bad_zero _ := hf
  cls_ne := by rw [hf]; decide
  mant_le := by rw [hf]; decide
  exp_ge := by rw [hf]; decide
  exp_le := by rw [hf]; decide
  prog_le := by rw [hf]; decide
  unit_def h := nomatch hv.symm.trans h
  ncv_ord _ := by rw [hf]; decide

/-- A successful DECODE writes values in their ranges, for tables that meet R7 (R30). -/
theorem measInv_of_operands {d : Nat → Byte} {m n : String} {k : MeasClass} {v : Decimal} {fseq : BitVec 8}
    (hp : t.params.legal = true) (ho : Operands t.params d m k v n)
    (ht : t.meas = writeResult fseq (.ok (operandFields t.params d k v n))) : MeasInv t := by
  obtain ⟨hlo, hhi⟩ := scale_exp_range hp k n ho.exp_range.1 ho.exp_range.2
  have hv : t.meas.valid = true := congrArg Meas.valid ht
  have hf : t.meas.fields = operandFields t.params d k v n := congrArg Meas.fields ht
  have hmant : t.meas.fields.mant = BitVec.ofNat 24 v.mant := by simp [hf, operandFields, fieldsOf]
  have hexp : t.meas.fields.exp.toInt = (scale t.params k v n).1.exp := hf ▸ expBits_toInt hlo hhi
  have hmode : outMode t = some m := by
    rw [outMode_of_valid hv, hf]
    exact ho.mode
  exact {
    err_le := ht ▸ Nat.zero_le 4
    ok_err := fun _ => congrArg Meas.err ht
    bad_zero := fun h => nomatch hv.symm.trans h
    cls_ne := hf ▸ classCode_ne_three k
    mant_le := by rw [hmant, mantBits_toNat ho.mant_le]; exact ho.mant_le
    exp_ge := hexp ▸ hlo
    exp_le := hexp ▸ hhi
    prog_le := hf ▸ progressOf_le (d 9) (d 10)
    unit_def := fun _ => by
      rw [outUnitRes_of_mode hmode, hf]
      exact Option.isSome_iff_exists.mpr ⟨n, ho.unit⟩
    ncv_ord := fun hc => by
      rw [hf] at hc
      exact hmant ▸ ho.ncv_mant_le hc }

theorem decodeErrorCode_le (e : DecodeError) : (decodeErrorCode e).toNat ≤ 4 := by
  cases e <;> decide

theorem measInv_decodedMeas (hp : s.params.legal = true) (ht : t.params = s.params) (hm : t.meas = decodedMeas s) :
    MeasInv t := by
  rcases decodedMeas_cases s with ⟨e, he⟩ | ⟨m, k, v, n, ho, he⟩
  · rw [he] at hm
    refine measInv_of_zero ?_ (congrArg Meas.valid hm) (congrArg Meas.fields hm)
    rw [hm]
    exact decodeErrorCode_le e
  · rw [← ht] at hp ho he
    exact measInv_of_operands hp ho (hm.trans he)

/-- DECODE replaces the MR registers alone (R102). -/
theorem inv_decodedMeas (hp : s.params.legal = true) (hu : u.params = s.params) (h : u.Inv) :
    State.Inv { u with meas := decodedMeas s } where
  legal := h.legal
  sync := h.sync.congr rfl rfl
  frame := h.frame.congr rfl
  complete h4 := (h.complete h4).congr rfl rfl
  events := h.events.congr rfl
  meas := measInv_decodedMeas hp hu rfl

/-- RESET leads into Inv from every state with legal tables (R112). -/
theorem inv_of_reset (hp : s.params.legal = true) (h : exec .reset s = .next t) : t.Inv := by
  cases h
  exact {
    legal := hp
    sync := syncInv_of_not_body 0 rfl (by decide) (Nat.zero_le 60) List.Pairwise.nil
    frame := ⟨fun _ => rfl, fun h => (nomatch h), Nat.zero_le 58, List.Pairwise.nil, rfl⟩
    complete := fun h => (nomatch h)
    events := ⟨Nat.zero_le 4, fun h => (nomatch h)⟩
    meas := measInv_of_zero (Nat.zero_le 4) rfl rfl }

/-- Settles O46: an edge is RESET, a move of the synchronizer, or such a move with DECODE's result. -/
theorem stepKeepsTheInvariant : Obligations.StepKeepsTheInvariant := by
  unfold Obligations.StepKeepsTheInvariant
  intro s t hi h
  have hi' : (takeEdge s).Inv := hi.takeEdge
  cases hr : (nextEdge s).rst with
  | true => exact inv_of_reset hi'.legal (step_reset hr ▸ h)
  | false =>
    obtain ⟨u, m, hdecode, hplain⟩ := step_move hr h
    cases hd : (nextEdge s).decStart with
    | true =>
      rw [hdecode hd]
      exact inv_decodedMeas hi'.legal m.params_eq (m.inv hi')
    | false =>
      rw [hplain hd]
      exact m.inv hi'

end Sys2Proof.Machine

/-! Publication (R40, R41): what one edge can make of the frame registers, of the MR registers and of the parameters. -/

namespace Sys2Proof.Machine

variable {s t u : State} {b : Byte}

/-- The host's reads of FBUF depend on the frame registers and on the draw for unspecified bytes alone. -/
theorem hostReadFbuf_congr (hf : t.frame = s.frame) (hd : t.fbufDraw = s.fbufDraw) (i : Nat) :
    hostReadFbuf t i = hostReadFbuf s i := by
  simp only [hostReadFbuf, fbufByte, hf, hd]

/-- The event registers show FRAME_OK exactly after an edge that raises it (R99, R100). -/
theorem recordEvent_shows_frameOk_iff (e : Option Event) (s : State) :
    (recordEvent e s).ev.evStb = true ∧ (recordEvent e s).ev.lastEv = 1 ↔ e = some .frameOk := by
  cases e with
  | none => simp
  | some k => cases k <;> simp

/-- An edge leaves FBUF, FLEN, FVALID and FSEQ alone and raises no FRAME_OK. -/
structure KeepsFrame (s t : State) : Prop where
  frame : t.frame = s.frame
  fbufDraw : t.fbufDraw = s.fbufDraw
  noFrameOk : ¬ (t.ev.evStb = true ∧ t.ev.lastEv = 1)

/-- An edge accepts `b` as the last body byte of a frame that passes its checksum, publishes the frame and raises FRAME_OK (R74). -/
structure PublishesFrame (s : State) (b : Byte) (t : State) : Prop where
  body : s.sync.st = 3
  last : s.sync.cnt.toNat + 1 = s.sync.len.toNat
  len_le : s.sync.len.toNat ≤ 60
  sum_eq : s.sync.sum = joinBytes s.sync.ckhi b
  frame : t.frame = (publish s).frame
  frameOk : t.ev.evStb = true ∧ t.ev.lastEv = 1

/-- A move that records another event than FRAME_OK, or none, on the frame registers of before keeps the frame. -/
theorem KeepsFrame.of_event {e : Option Event} (he : e ≠ some .frameOk) (hf : u.frame = s.frame)
    (hd : u.fbufDraw = s.fbufDraw) : KeepsFrame s (noDecode (recordEvent e u)) where
  frame := by rw [noDecode_frame, recordEvent_frame, hf]
  fbufDraw := by rw [noDecode_fbufDraw, recordEvent_fbufDraw, hd]
  noFrameOk := mt (recordEvent_shows_frameOk_iff e u).mp he

namespace SyncMove

/-- Only B.CKLO_OK touches the frame registers, and it publishes all of them (R40, R74). -/
theorem keepsFrame_or_publishes (m : SyncMove s b t) : KeepsFrame s t ∨ PublishesFrame s b t := by
  cases m
  case ckloOk h3 hc hle hsum =>
    exact .inr {
      body := h3
      last := hc
      len_le := by omega
      sum_eq := hsum
      frame := rfl
      frameOk := ⟨rfl, rfl⟩ }
  case clear | idle | recover | hunt | lenOk | lenErr | data | ckhi | ckloBad =>
    exact .inl (.of_event (by decide) rfl rfl)

theorem inputs_eq (m : SyncMove s b t) : t.inputs = s.inputs := by
  cases m <;> rfl

end SyncMove

/-- A published frame is the LEN - 2 data bytes in ABUF (R74). -/
theorem PublishesFrame.data_eq (h : PublishesFrame s b t) (h3 : 3 ≤ s.sync.len.toNat) :
    t.frame.flen.toNat = s.sync.len.toNat - 2
      ∧ ∀ i, i < t.frame.flen.toNat → hostReadFbuf t i = some (abufByte s i) := by
  have hlen : t.frame.flen.toNat = s.sync.len.toNat - 2 := h.frame ▸ flen_toNat h3 h.len_le
  exact ⟨hlen, fun i hi => hostReadFbuf_published h.frame h3 h.len_le (hlen ▸ hi)⟩

/-- Whether dec_start is set or not, a step with rst = 0 is a synchronizer move but for the MR registers (R82). -/
theorem step_move_but_meas (hr : (nextEdge s).rst = false) (h : step s = .next t) :
    ∃ u, SyncMove (takeEdge s) (nextEdge s).inByte u ∧ t = { u with meas := t.meas } := by
  obtain ⟨u, m, hdecode, hplain⟩ := step_move hr h
  refine ⟨u, m, ?_⟩
  cases hd : (nextEdge s).decStart with
  | true => rw [hdecode hd]
  | false => rw [hplain hd]

/-- Settles O34: of the synchronizer's moves B.CKLO_OK alone publishes, and DECODE writes none of the registers involved. -/
theorem framePublicationIsAtomic : Obligations.FramePublicationIsAtomic := by
  unfold Obligations.FramePublicationIsAtomic
  intro s t h hr
  obtain ⟨u, m, ht⟩ := step_move_but_meas hr h
  rw [ht]
  rcases m.keepsFrame_or_publishes with hk | hp
  · exact .inl ⟨hk.frame, hostReadFbuf_congr hk.frame hk.fbufDraw, hk.noFrameOk⟩
  · have hvalid : u.frame.fvalid = true := congrArg FrameOut.fvalid hp.frame
    have hseq : u.frame.fseq = s.frame.fseq + 1 := congrArg FrameOut.fseq hp.frame
    exact .inr ⟨hp.body, hp.last, hp.sum_eq, hvalid, hseq, hp.data_eq, hp.frameOk⟩

/-- Success and failure alike set MR_STB (R82, R97). -/
@[simp] theorem writeResult_stb (fseq : BitVec 8) (r : Except DecodeError Fields) : (writeResult fseq r).stb = true := by
  cases r <;> rfl

@[simp] theorem writeResult_fseq (fseq : BitVec 8) (r : Except DecodeError Fields) : (writeResult fseq r).fseq = fseq := by
  cases r <;> rfl

/-- Settles O35: the synchronizer's moves write MR_STB alone, and with dec_start the MR registers are DECODE's. -/
theorem resultPublicationIsAtomic : Obligations.ResultPublicationIsAtomic := by
  unfold Obligations.ResultPublicationIsAtomic
  intro s t h hr
  obtain ⟨u, m, hdecode, hplain⟩ := step_move hr h
  constructor
  · intro hd
    rw [hplain hd]
    exact m.meas_eq
  · intro hd
    have hmeas : t.meas = decodedMeas (takeEdge s) := congrArg State.meas (hdecode hd)
    rw [hmeas]
    exact ⟨writeResult_stb _ _, writeResult_fseq _ _, _, exec_decode _, rfl⟩

/-- Settles O30 with the model's own law of `joinBytes`. -/
theorem checksumIsBigEndian : Obligations.ChecksumIsBigEndian := joinBytes_toNat

/-- Settles O38: RESET and every move of the synchronizer keep the parameters and the edges that `takeEdge` leaves. -/
theorem tablesNeverChange : Obligations.TablesNeverChange := by
  unfold Obligations.TablesNeverChange
  intro s t h
  cases hr : (nextEdge s).rst with
  | true =>
    rw [step_reset hr] at h
    cases h
    exact ⟨rfl, rfl⟩
  | false =>
    obtain ⟨u, m, ht⟩ := step_move_but_meas hr h
    rw [ht]
    exact ⟨m.params_eq, m.inputs_eq⟩

end Sys2Proof.Machine

/-! The rows of R60 as a relation: the one that `classify` decides, and the one that the encoder's word of a well-formed operation
lies in. -/

namespace Sys2Proof

/-- The state, byte and condition columns of R60 for a row. -/
def ByteClass.Selects (c : ClassCtx) (st : BitVec 3) (b : Byte) : ByteClass → Prop
  | .hdr1 => st = 0 ∧ b = Config.hdr1
  | .hdr1Resident => (st = 4 ∨ st = 5) ∧ b = Config.hdr1
  | .noise => st = 0 ∧ b ≠ Config.hdr1
  | .noiseResident => (st = 4 ∨ st = 5) ∧ b ≠ Config.hdr1
  | .hdr2 => st = 1 ∧ b = Config.hdr2
  | .rehunt => st = 1 ∧ b = Config.hdr1 ∧ c.h2Rehunt = true
  | .resync => st = 1 ∧ b ≠ Config.hdr2 ∧ ¬ (b = Config.hdr1 ∧ c.h2Rehunt = true)
  | .lenOk => st = 2 ∧ legalLen b = true
  | .lenErr => st = 2 ∧ legalLen b = false
  | .data => st = 3 ∧ c.cnt.toNat + 2 < c.len.toNat
  | .ckhi => st = 3 ∧ c.cnt.toNat + 2 = c.len.toNat
  | .ckloOk => st = 3 ∧ c.cnt.toNat + 1 = c.len.toNat ∧ c.sum = joinBytes c.ckhi b
  | .ckloBad => st = 3 ∧ c.cnt.toNat + 1 = c.len.toNat ∧ c.sum ≠ joinBytes c.ckhi b
  | .illegal => st = 6 ∨ st = 7

/-- The row that a byte-class operation stands for; the operations of R59 stand for none. -/
def Instr.byteClass : Instr → Option ByteClass
  | .reset | .clear | .push _ | .decode | .idle => none
  | .bHdr1 => some .hdr1
  | .bHdr1Resident _ => some .hdr1Resident
  | .bNoise _ => some .noise
  | .bNoiseResident _ _ => some .noiseResident
  | .bHdr2 => some .hdr2
  | .bRehunt => some .rehunt
  | .bResync _ => some .resync
  | .bLenOk _ => some .lenOk
  | .bLenErr _ => some .lenErr
  | .bData _ => some .data
  | .bCkhi _ => some .ckhi
  | .bCkloOk _ => some .ckloOk
  | .bCkloBad _ => some .ckloBad
  | .stIllegal _ _ => some .illegal

/-- The checksum condition of R60, with the received word read high byte first (R37). -/
theorem eq_joinBytes_iff {x : Sum16} {hi lo : Byte} : x = joinBytes hi lo ↔ x.toNat = 256 * hi.toNat + lo.toNat := by
  rw [← BitVec.toNat_inj, joinBytes_toNat, Nat.mul_comm]

section rows
variable {c : ClassCtx} {st : BitVec 3} {b : Byte} {k : ByteClass} {i : Instr} {w : BitVec 11}

theorem classify_of_selects (h : k.Selects c st b) : classify c st b = some k := by
  cases k
  case hdr1 | hdr2 | lenOk | lenErr => obtain ⟨rfl, hb⟩ := h; simp [classify, hb]
  case noise => obtain ⟨rfl, hb⟩ := h; exact if_neg hb
  case hdr1Resident => obtain ⟨rfl | rfl, hb⟩ := h <;> simp [classify, hb]
  case noiseResident => obtain ⟨rfl | rfl, hb⟩ := h <;> exact if_neg hb
  case rehunt => obtain ⟨rfl, rfl, hc⟩ := h; simp [classify, hc]
  case resync => obtain ⟨rfl, h2, h1⟩ := h; simp_all [classify]
  case data => obtain ⟨rfl, hlt⟩ := h; simp [classify, bodyClass, hlt]
  case ckhi => obtain ⟨rfl, heq⟩ := h; simp [classify, bodyClass, heq]
  case ckloOk | ckloBad =>
    obtain ⟨rfl, heq, hsum⟩ := h
    simp [classify, bodyClass, ← heq, hsum]
  case illegal => rcases h with rfl | rfl <;> simp [classify]

/-- `classify` answers a row exactly where the row's columns hold (R60). -/
theorem classify_eq_some_iff : classify c st b = some k ↔ k.Selects c st b := by
  refine ⟨fun h => ?_, classify_of_selects⟩
  rcases classify_spec h with ⟨rfl, r⟩ | ⟨rfl, r⟩ | ⟨rfl, r⟩ | ⟨rfl, r⟩ | ⟨rfl, r⟩ | ⟨rfl, r⟩ | ⟨rfl, r⟩ | ⟨rfl, r⟩ | ⟨rfl, r⟩ |
    ⟨rfl, r⟩ | ⟨rfl, r⟩ | ⟨rfl, r⟩ | ⟨rfl, r⟩ | ⟨rfl, r⟩ <;> exact r

theorem bodyClass_eq_none_iff : bodyClass c b = none ↔ c.len.toNat ≤ c.cnt.toNat := by
  unfold bodyClass
  split_ifs <;> simp <;> omega

/-- No row is missing but those of READ_BODY with CNT >= LEN (log entry 5). -/
theorem classify_eq_none_iff : classify c st b = none ↔ st = 3 ∧ c.len.toNat ≤ c.cnt.toNat := by
  by_cases h3 : st = 3
  · subst h3
    simp [classify, bodyClass_eq_none_iff]
  · simp only [h3, false_and, iff_false, classify, if_false]
    split_ifs <;> simp

/-- The encoder's word and its row determine the operation: its operands are bits of the word. -/
theorem toInstr_of_encode (h : encode i = .sb w) (hk : i.byteClass = some k) : k.toInstr w = i := by
  cases i
  case reset | clear | push | decode | idle => cases hk
  all_goals
    cases hk
    cases h
    simp [ByteClass.toInstr]

theorem encode_toInstr_sbWord (h : k.Selects c st b) : encode (k.toInstr (sbWord st b)) = .sb (sbWord st b) := by
  cases k
  case hdr1Resident => obtain ⟨hst, rfl⟩ := h; simp only [ByteClass.toInstr, encode, residentState_sbLow _ hst]
  case noiseResident => simp [ByteClass.toInstr, encode, residentState_sbLow b h.1]
  case illegal => simp [ByteClass.toInstr, encode, illegalState_sbLow b h]
  case hdr1 | hdr2 => obtain ⟨rfl, rfl⟩ := h; rfl
  case rehunt => obtain ⟨rfl, rfl, -⟩ := h; rfl
  case noise | resync | lenOk | lenErr | data | ckhi | ckloOk | ckloBad => simp [ByteClass.toInstr, encode, h.1]

/-- A word's row encodes back to the word. -/
theorem encode_toInstr (h : k.Selects c (sbState w) (sbByte w)) : encode (k.toInstr w) = .sb w := by
  have he := encode_toInstr_sbWord h
  rwa [sbWord_eta] at he

@[simp] theorem byteClass_toInstr (k : ByteClass) (w : BitVec 11) : (k.toInstr w).byteClass = some k := by
  cases k <;> rfl

/-- An operation's byte and condition columns hold together exactly where its row holds at its own word. -/
theorem selects_iff_wf_fits (c : ClassCtx) (h : encode i = .sb w) (hk : i.byteClass = some k) :
    k.Selects c (sbState w) (sbByte w) ↔ i.wf = true ∧ i.fits c = true := by
  cases i
  case reset | clear | push | decode | idle => cases hk
  all_goals
    cases hk
    cases h
    simp [ByteClass.Selects, Instr.wf, Instr.fits]
  case bHdr1Resident low => exact residentState_cases low
  case bNoiseResident low b => exact fun _ => residentState_cases low
  case bResync b => exact fun _ => imp_iff_not_or
  case stIllegal low b => exact illegalState_cases low

theorem byteClass_eq_some_of_encode (h : encode i = .sb w) : ∃ k, i.byteClass = some k := by
  cases i
  case reset | clear | push | decode | idle => cases h
  all_goals exact ⟨_, rfl⟩

theorem decode_sb_of_selects (h : k.Selects c (sbState w) (sbByte w)) : decode c (.sb w) = .ok (k.toInstr w) := by
  simp [decode, classify_of_selects h]

theorem decode_sb_ok (h : decode c (.sb w) = .ok i) : ∃ k : ByteClass, k.Selects c (sbState w) (sbByte w) ∧ i = k.toInstr w := by
  simp only [decode] at h
  split at h
  next k hk => exact ⟨k, classify_eq_some_iff.mp hk, (Except.ok.inj h).symm⟩
  next => cases h

end rows

end Sys2Proof

/-! Decoding and encoding are inverse to each other, and each row of the opcode table holds the words that decode into it (R59, R60). -/

namespace Sys2Proof

/-- The encoder's operation word decodes to its operation (R59). -/
theorem decodeOp_of_encode {i : Instr} {opw : BitVec 4} {b : Byte} (h : encode i = .op opw b) :
    decodeOp { opw := opw, inByte := b } = i := by
  cases i
  case reset | clear | push | decode | idle => cases h; simp [decodeOp, Edge.rst, Edge.clr, Edge.inValid, Edge.decStart]
  all_goals cases h

/-- Settles O41: an operation word by R59's priority, an SBW word because exactly its row is selected. -/
theorem decodeOfEncode : Obligations.DecodeOfEncode := by
  unfold Obligations.DecodeOfEncode
  intro c i hwf hfits
  cases he : encode i with
  | op opw b => exact congrArg Except.ok (decodeOp_of_encode he)
  | sb w =>
    obtain ⟨k, hk⟩ := byteClass_eq_some_of_encode he
    rw [decode_sb_of_selects ((selects_iff_wf_fits c he hk).mpr ⟨hwf, hfits⟩), toInstr_of_encode he hk]

/-- Settles O40: the statement's columns are those that `classify` decides, its checksum condition read as one 16-bit word. -/
theorem exactlyOneByteClass : Obligations.ExactlyOneByteClass := by
  unfold Obligations.ExactlyOneByteClass
  intro c st b hst hcnt
  have hsome : classify c st b ≠ none := fun hn =>
    have ⟨h3, hle⟩ := classify_eq_none_iff.mp hn
    absurd (hcnt h3) (Nat.not_lt.mpr hle)
  obtain ⟨k, hk⟩ := Option.ne_none_iff_exists'.mp hsome
  refine ⟨k, hk, fun k' => ?_⟩
  have huniq : k'.Selects c st b ↔ k' = k := by
    rw [← classify_eq_some_iff, hk, Option.some.injEq, eq_comm]
  rw [← huniq]
  have hlegal : ¬ (st = 6 ∨ st = 7) := by rintro (rfl | rfl) <;> revert hst <;> decide
  cases k'
  case lenOk => exact and_congr_right fun _ => (legalLen_iff b).symm
  case lenErr =>
    refine and_congr_right fun _ => ?_
    rw [← Bool.not_eq_true, legalLen_iff]
    omega
  case ckloOk => exact and_congr_right fun _ => and_congr_right fun _ => eq_joinBytes_iff.symm
  case ckloBad => exact and_congr_right fun _ => and_congr_right fun _ => not_congr eq_joinBytes_iff.symm
  case illegal => exact ⟨False.elim, hlegal⟩
  all_goals exact Iff.rfl

/-- The encoder's word lies in its operation's row. -/
theorem encode_in_row {i : Instr} (h : i.wf = true) : (encode i).bits &&& i.row.2 = i.row.1 :=
  match i with
  | .reset => Laws.EncodeInRow.reset h
  | .clear => Laws.EncodeInRow.clear h
  | .push b => Laws.EncodeInRow.push b h
  | .decode => Laws.EncodeInRow.decode h
  | .idle => Laws.EncodeInRow.idle h
  | .bHdr1 => Laws.EncodeInRow.bHdr1 h
  | .bHdr1Resident low => Laws.EncodeInRow.bHdr1Resident low h
  | .bNoise b => Laws.EncodeInRow.bNoise b h
  | .bNoiseResident low b => Laws.EncodeInRow.bNoiseResident low b h
  | .bHdr2 => Laws.EncodeInRow.bHdr2 h
  | .bRehunt => Laws.EncodeInRow.bRehunt h
  | .bResync b => Laws.EncodeInRow.bResync b h
  | .bLenOk b => Laws.EncodeInRow.bLenOk b h
  | .bLenErr b => Laws.EncodeInRow.bLenErr b h
  | .bData b => Laws.EncodeInRow.bData b h
  | .bCkhi b => Laws.EncodeInRow.bCkhi b h
  | .bCkloOk b => Laws.EncodeInRow.bCkloOk b h
  | .bCkloBad b => Laws.EncodeInRow.bCkloBad b h
  | .stIllegal low b => Laws.EncodeInRow.stIllegal low b h

section operationWords

/-! The match and mask of each row of R59, read as bits of OPW. -/

theorem opw_reset_iff : ∀ w : BitVec 4, w &&& 0b1000 = 0b1000 ↔ w.getLsbD 3 = true := by decide
theorem opw_clear_iff : ∀ w : BitVec 4, w &&& 0b1100 = 0b0100 ↔ w.getLsbD 3 = false ∧ w.getLsbD 2 = true := by decide
theorem opw_push_iff : ∀ w : BitVec 4,
    w &&& 0b1101 = 0b0001 ↔ w.getLsbD 3 = false ∧ w.getLsbD 2 = false ∧ w.getLsbD 0 = true := by decide
theorem opw_decode_iff : ∀ w : BitVec 4, w &&& 0b1010 = 0b0010 ↔ w.getLsbD 3 = false ∧ w.getLsbD 1 = true := by decide
theorem opw_idle_iff : ∀ w : BitVec 4, w &&& 0b1111 = 0b0000 ↔
    w.getLsbD 3 = false ∧ w.getLsbD 2 = false ∧ w.getLsbD 0 = false ∧ w.getLsbD 1 = false := by decide

/-! When each operation is the first of its edge (R104). -/

variable (e : Edge)

theorem decodeOp_eq_reset_iff : decodeOp e = .reset ↔ e.rst = true := by
  unfold decodeOp
  split_ifs <;> simp_all

theorem decodeOp_eq_clear_iff : decodeOp e = .clear ↔ e.rst = false ∧ e.clr = true := by
  unfold decodeOp
  split_ifs <;> simp_all

theorem decodeOp_eq_push_iff : decodeOp e = .push e.inByte ↔ e.rst = false ∧ e.clr = false ∧ e.inValid = true := by
  unfold decodeOp
  split_ifs <;> simp_all

theorem decodeOp_eq_decode_iff :
    decodeOp e = .decode ↔ e.rst = false ∧ e.clr = false ∧ e.inValid = false ∧ e.decStart = true := by
  unfold decodeOp
  split_ifs <;> simp_all

theorem decodeOp_eq_idle_iff :
    decodeOp e = .idle ↔ e.rst = false ∧ e.clr = false ∧ e.inValid = false ∧ e.decStart = false := by
  unfold decodeOp
  split_ifs <;> simp_all

theorem decodeOp_cases : decodeOp e = .reset ∨ decodeOp e = .clear ∨ decodeOp e = .push e.inByte ∨ decodeOp e = .decode
    ∨ decodeOp e = .idle := by
  unfold decodeOp
  split_ifs <;> simp

/-- DECODE rides along with CLEAR or PUSH (R59). -/
theorem decodeEdge_alongside_iff :
    (decodeEdge e).alongside = true ↔ (e.rst = false ∧ e.decStart = true) ∧ (e.clr || e.inValid) = true := by
  simp only [decodeEdge, Bool.and_eq_true, Bool.not_eq_true']

/-- DECODE is a channel of its own, which only RESET overrides (R59, R104). -/
theorem decodeEdge_decodes_iff :
    (decodeEdge e).alongside = true ∨ (decodeEdge e).main = .decode ↔ e.rst = false ∧ e.decStart = true := by
  rw [decodeEdge_alongside_iff, show (decodeEdge e).main = decodeOp e from rfl, decodeOp_eq_decode_iff]
  constructor
  · rintro (⟨hdec, -⟩ | ⟨hr, -, -, hd⟩)
    · exact hdec
    · exact ⟨hr, hd⟩
  · rintro ⟨hr, hd⟩
    cases hx : e.clr || e.inValid with
    | true => exact .inl ⟨⟨hr, hd⟩, rfl⟩
    | false =>
      obtain ⟨hc, hv⟩ := Bool.or_eq_false_iff.mp hx
      exact .inr ⟨hr, hc, hv, hd⟩

end operationWords

/-- Settles O32: match and mask of each row name the bits that `decodeEdge` tests. -/
theorem operationWordSelects : Obligations.OperationWordSelects := by
  unfold Obligations.OperationWordSelects
  intro w b
  exact ⟨(opw_reset_iff w).trans (decodeOp_eq_reset_iff ⟨w, b⟩).symm, (opw_clear_iff w).trans (decodeOp_eq_clear_iff ⟨w, b⟩).symm,
    (opw_push_iff w).trans (decodeOp_eq_push_iff ⟨w, b⟩).symm, (opw_decode_iff w).trans (decodeEdge_decodes_iff ⟨w, b⟩).symm,
    (opw_idle_iff w).trans (decodeOp_eq_idle_iff ⟨w, b⟩).symm⟩

/-- An operation word decodes to an operation of R59, whose columns ask nothing beside the word's own bits. -/
theorem decodeOp_in_row (c : ClassCtx) (w : BitVec 4) (b : Byte) :
    (decodeOp ⟨w, b⟩).wf = true ∧ (decodeOp ⟨w, b⟩).fits c = true
      ∧ w.toNat &&& (decodeOp ⟨w, b⟩).row.2 = (decodeOp ⟨w, b⟩).row.1 := by
  obtain ⟨hreset, hclear, hpush, hdecode, hidle⟩ := operationWordSelects w b
  rcases decodeOp_cases ⟨w, b⟩ with h | h | h | h | h
  · exact h ▸ ⟨rfl, rfl, congrArg BitVec.toNat (hreset.mpr h)⟩
  · exact h ▸ ⟨rfl, rfl, congrArg BitVec.toNat (hclear.mpr h)⟩
  · exact h ▸ ⟨rfl, rfl, congrArg BitVec.toNat (hpush.mpr h)⟩
  · exact h ▸ ⟨rfl, rfl, congrArg BitVec.toNat (hdecode.mpr (.inr h))⟩
  · exact h ▸ ⟨rfl, rfl, congrArg BitVec.toNat (hidle.mpr h)⟩

/-- Settles O42: an operation word by its bits, an SBW word because the row it selects encodes back to it. -/
theorem encodeOfDecode : Obligations.EncodeOfDecode := by
  unfold Obligations.EncodeOfDecode
  intro c w i h
  cases w with
  | op w b =>
    cases h
    obtain ⟨hwf, hfits, hrow⟩ := decodeOp_in_row c w b
    exact ⟨hwf, hfits, hrow, fun x hx => nomatch hx⟩
  | sb w =>
    obtain ⟨k, hsel, rfl⟩ := decode_sb_ok h
    have he := encode_toInstr hsel
    obtain ⟨hwf, hfits⟩ := (selects_iff_wf_fits c he (byteClass_toInstr k w)).mp hsel
    exact ⟨hwf, hfits, he ▸ encode_in_row hwf, fun _ _ => he⟩

/-- Settles O43 by reading each of the seventeen words. -/
theorem tableWordsDecode : Obligations.TableWordsDecode := by
  unfold Obligations.TableWordsDecode
  decide

end Sys2Proof

/-! Byte-class rows as operations of their own: refused where R60 does not select them (log entry 7), and in READ_BODY what each of
them and the PUSH performing it answers, values that no rule leaves included (log entry 5). -/

namespace Sys2Proof.Machine

section rows
variable {s : State} {b : Byte} {k : ByteClass} {i : Instr} {w : BitVec 11}

/-- A byte-class operation is its row at its own word: the word's ST and byte, and the row's own effect. -/
theorem exec_eq_ifSelected (s : State) (h : encode i = .sb w) (hk : i.byteClass = some k) :
    ∃ o, exec i s = ifSelected s (sbState w) (sbByte w) k o := by
  cases i
  case reset | clear | push | decode | idle => cases hk
  all_goals
    cases hk
    cases h
    rw [sbState_sbWord, sbByte_sbWord]
    exact ⟨_, rfl⟩

/-- Settles O16: a row that is performed has its word's ST and is what the word decodes to. -/
theorem unselectedRowIsRefused : Obligations.UnselectedRowIsRefused := by
  unfold Obligations.UnselectedRowIsRefused
  intro s i w he hnot
  obtain ⟨k, hk⟩ := byteClass_eq_some_of_encode he
  obtain ⟨o, ho⟩ := exec_eq_ifSelected s he hk
  rw [ho]
  refine if_neg ?_
  rintro ⟨hst, hrow⟩
  rcases hnot with hst' | hdec
  · exact hst' hst.symm
  · rw [decode_sb_of_selects (classify_eq_some_iff.mp hrow), toInstr_of_encode he hk] at hdec
    exact hdec rfl

/-- PUSH of the byte of a selected row is that row's operation (R65). -/
theorem exec_push_eq_row (he : encode i = .sb (sbWord s.sync.st b)) (hk : i.byteClass = some k)
    (hsel : k.Selects (classCtx s) s.sync.st b) : exec (.push b) s = exec i s := by
  rw [exec_push_eq (classify_of_selects hsel), toInstr_of_encode he hk]

end rows

section body
variable {s : State} {b : Byte}

/-- The registers after B.CKLO_BAD (R75). -/
def Sync.ckloBad (y : Sync) (b : Byte) : Sync := { y with ckrx := joinBytes y.ckhi b, cnt := y.cnt + 1, st := 5 }

/-- The state after B.CKLO_OK but for its event and MR_STB (R74). -/
def completeFrame (s : State) (b : Byte) : State :=
  { publish s with sync := { s.sync with ckrx := joinBytes s.sync.ckhi b, cnt := s.sync.cnt + 1, st := 4 } }

theorem exec_push_of_no_row (h3 : s.sync.st = 3) (hc : s.sync.len.toNat ≤ s.sync.cnt.toNat) :
    exec (.push b) s = .fault .noByteClass := by
  have hnone : classify (classCtx s) s.sync.st b = none := classify_eq_none_iff.mpr ⟨h3, hc⟩
  simp only [exec, execPush, hnone]

section data
variable (h3 : s.sync.st = 3) (hc : s.sync.cnt.toNat + 2 < s.sync.len.toNat)
include h3 hc

theorem exec_push_eq_bData : exec (.push b) s = exec (.bData b) s :=
  exec_push_eq_row (by rw [h3]; rfl) rfl ⟨h3, hc⟩

theorem exec_bData_of_index (hi : s.sync.cnt.toNat < 58) : exec (.bData b) s = .next (noEvent s (s.sync.data b)) :=
  (ifSelected_of _ h3 (classify_of_selects (k := .data) ⟨rfl, hc⟩)).trans (if_pos hi)

theorem exec_bData_of_no_index (hi : 58 ≤ s.sync.cnt.toNat) : exec (.bData b) s = .fault .noSuchByte :=
  (ifSelected_of _ h3 (classify_of_selects (k := .data) ⟨rfl, hc⟩)).trans (if_neg (Nat.not_lt.mpr hi))

end data

section ckhi
variable (h3 : s.sync.st = 3) (hc : s.sync.cnt.toNat + 2 = s.sync.len.toNat)
include h3 hc

theorem exec_push_eq_bCkhi : exec (.push b) s = exec (.bCkhi b) s :=
  exec_push_eq_row (by rw [h3]; rfl) rfl ⟨h3, hc⟩

theorem exec_bCkhi_eq : exec (.bCkhi b) s = .next (noEvent s (s.sync.ckhiHeld b)) :=
  ifSelected_of _ h3 (classify_of_selects (k := .ckhi) ⟨rfl, hc⟩)

end ckhi

section cklo
variable (h3 : s.sync.st = 3) (hc : s.sync.cnt.toNat + 1 = s.sync.len.toNat)
include h3 hc

theorem exec_push_eq_bCkloOk (hsum : s.sync.sum = joinBytes s.sync.ckhi b) : exec (.push b) s = exec (.bCkloOk b) s :=
  exec_push_eq_row (by rw [h3]; rfl) rfl ⟨h3, hc, hsum⟩

theorem exec_bCkloOk_of_room (hsum : s.sync.sum = joinBytes s.sync.ckhi b) (hl : s.sync.len.toNat ≤ 60) :
    exec (.bCkloOk b) s = finish (some .frameOk) (completeFrame s b) :=
  (ifSelected_of _ h3 (classify_of_selects (k := .ckloOk) ⟨rfl, hc, hsum⟩)).trans (if_pos (Nat.sub_le_sub_right hl 2))

theorem exec_bCkloOk_of_no_room (hsum : s.sync.sum = joinBytes s.sync.ckhi b) (hl : 60 < s.sync.len.toNat) :
    exec (.bCkloOk b) s = .fault .noSuchByte :=
  (ifSelected_of _ h3 (classify_of_selects (k := .ckloOk) ⟨rfl, hc, hsum⟩)).trans
    (if_neg (show ¬ s.sync.len.toNat - 2 ≤ 58 by omega))

theorem exec_push_eq_bCkloBad (hsum : s.sync.sum ≠ joinBytes s.sync.ckhi b) : exec (.push b) s = exec (.bCkloBad b) s :=
  exec_push_eq_row (by rw [h3]; rfl) rfl ⟨h3, hc, hsum⟩

theorem exec_bCkloBad_eq (hsum : s.sync.sum ≠ joinBytes s.sync.ckhi b) :
    exec (.bCkloBad b) s = .next (errorEvent s (s.sync.ckloBad b) 3) :=
  ifSelected_of _ h3 (classify_of_selects (k := .ckloBad) ⟨rfl, hc, hsum⟩)

end cklo

theorem abufByte_data_same (s : State) (b : Byte) : abufByte (noEvent s (s.sync.data b)) s.sync.cnt.toNat = b := by
  simp [abufByte, noEvent, Sync.data]

theorem abufByte_data_other (s : State) (b : Byte) {i : Nat} (h : i ≠ s.sync.cnt.toNat) :
    abufByte (noEvent s (s.sync.data b)) i = abufByte s i := by
  simp only [abufByte, noEvent, Sync.data, lookup_write_other _ b h]

/-- The received checksum as the 16-bit word that CKRX holds (R20, R37). -/
theorem ofNat_eq_joinBytes (hi lo : Byte) : BitVec.ofNat 16 (256 * hi.toNat + lo.toNat) = joinBytes hi lo := by
  rw [Nat.mul_comm, ← joinBytes_toNat, BitVec.ofNat_toNat, BitVec.setWidth_eq]

/-- CNT counts modulo 64 (R17). -/
theorem ofNat_cnt_succ (c : BitVec 6) : BitVec.ofNat 6 ((c.toNat + 1) % 64) = c + 1 := by
  apply BitVec.eq_of_toNat_eq
  simp

end body

/-- Settles O17: no row with CNT >= LEN, no index 58 of ABUF, no room in FBUF for more than 58 bytes. -/
theorem unreachableBodyStops : Obligations.UnreachableBodyStops := by
  unfold Obligations.UnreachableBodyStops
  refine ⟨fun s b => exec_push_of_no_row, fun s b h3 hi hc => ?_, fun s b h3 hl hc hsum => ?_⟩
  · have hstop := exec_bData_of_no_index (b := b) h3 hc hi
    exact ⟨hstop, (exec_push_eq_bData h3 hc).trans hstop⟩
  · rw [← eq_joinBytes_iff] at hsum
    have hstop := exec_bCkloOk_of_no_room h3 hc hsum hl
    exact ⟨hstop, (exec_push_eq_bCkloOk h3 hc hsum).trans hstop⟩

/-- Settles O51 by the rows' own rules, which do not ask for a legal LEN. -/
theorem unreachableBodyGoesOn : Obligations.UnreachableBodyGoesOn := by
  unfold Obligations.UnreachableBodyGoesOn
  refine ⟨fun s b h3 hl => ⟨fun hi => ?_, fun hc => ?_, fun hc hsum => ?_⟩, fun s b h3 hl hc hsum => ?_⟩
  · have hc : s.sync.cnt.toNat + 2 < s.sync.len.toNat := by omega
    have hnext := exec_bData_of_index (b := b) h3 hc hi
    exact ⟨_, hnext, (exec_push_eq_bData h3 hc).trans hnext, rfl, abufByte_data_same s b,
      fun i => abufByte_data_other s b⟩
  · rw [ofNat_cnt_succ]
    exact ⟨exec_bCkhi_eq h3 hc, exec_push_eq_bCkhi h3 hc⟩
  · rw [ne_eq, ← eq_joinBytes_iff] at hsum
    rw [ofNat_cnt_succ, ofNat_eq_joinBytes]
    exact ⟨exec_bCkloBad_eq h3 hc hsum, exec_push_eq_bCkloBad h3 hc hsum⟩
  · rw [← eq_joinBytes_iff] at hsum
    have h60 : s.sync.len.toNat ≤ 60 := by rcases hl with hl | hl <;> rw [hl] <;> decide
    have hnext := exec_bCkloOk_of_room h3 hc hsum h60
    exact ⟨_, hnext, (exec_push_eq_bCkloOk h3 hc hsum).trans hnext, rfl, rfl, rfl, rfl, rfl⟩

end Sys2Proof.Machine

/-! A table word placed by `withFetchWord` (log entry 6): the conditions it sets select the row that `decodeTableWord` reads. -/

namespace Sys2Proof

theorem decodeTable_of_decodeTableWord {nbits w : Nat} {i : Instr} (h : decodeTableWord nbits w = some i) :
    decodeTable nbits w = .ok i := by
  unfold decodeTableWord at h
  split at h
  next j hj => cases h; exact hj
  next => cases h

theorem tableEnc_op {nbits w : Nat} {opw : BitVec 4} {b : Byte} (h : tableEnc nbits w = .ok (.op opw b)) :
    nbits ≤ 8 ∧ opw.toNat = w := by
  unfold tableEnc at h
  split_ifs at h with hn hw <;> cases h
  exact ⟨hn, Nat.mod_eq_of_lt hw⟩

theorem decodeEdge_push (b : Byte) : decodeEdge ⟨0b0001, b⟩ = { main := .push b, alongside := false } := by
  simp [decodeEdge, decodeOp, Edge.rst, Edge.clr, Edge.inValid, Edge.decStart]

/-- A row read with nothing beside its word is selected under any conditions that agree with that reading (log entry 6). -/
theorem ByteClass.Selects.of_tableCtx {c : ClassCtx} {x : BitVec 11} {k : ByteClass}
    (h : k.Selects (tableCtx x) (sbState x) (sbByte x)) (hrehunt : x = 0x1AB → c.h2Rehunt = true)
    (hbody : sbState x = 3 → c.len = 3 ∧ c.cnt = 0) : k.Selects c (sbState x) (sbByte x) := by
  cases k
  case rehunt =>
    obtain ⟨hst, hb, hx⟩ := h
    exact ⟨hst, hb, hrehunt (of_decide_eq_true hx)⟩
  case resync =>
    obtain ⟨hst, h2, h1⟩ := h
    refine ⟨hst, h2, fun ⟨hb, _⟩ => h1 ⟨hb, decide_eq_true ?_⟩⟩
    rw [← sbWord_eta x, hst, hb]
    rfl
  case data =>
    obtain ⟨hlen, hcnt⟩ := hbody h.1
    refine ⟨h.1, ?_⟩
    rw [hlen, hcnt]
    decide
  case ckhi => exact absurd h.2 (by decide : ¬ 0 + 2 = 3)
  case ckloOk | ckloBad => exact absurd h.2.1 (by decide : ¬ 0 + 1 = 3)
  all_goals exact h

end Sys2Proof

namespace Sys2Proof.Machine
variable {s : State} {nbits w : Nat} {i : Instr}

theorem withFetchWord_op {opw : BitVec 4} {b : Byte} (h : tableEnc nbits w = .ok (.op opw b)) :
    s.withFetchWord nbits w = { s with inputs := ⟨opw, b⟩ :: s.inputs } := by
  simp only [State.withFetchWord, h]

/-- A placed SBW word is a PUSH of its byte at its ST, under conditions that agree with the word's reading. -/
theorem withFetchWord_sb {x : BitVec 11} (s : State) (h : tableEnc nbits w = .ok (.sb x)) :
    nextEdge (s.withFetchWord nbits w) = ⟨0b0001, sbByte x⟩ ∧ (s.withFetchWord nbits w).sync.st = sbState x
    ∧ (x = 0x1AB → (s.withFetchWord nbits w).params.h2Rehunt = true)
    ∧ (sbState x = 3 → (s.withFetchWord nbits w).sync.len = 3 ∧ (s.withFetchWord nbits w).sync.cnt = 0) := by
  unfold State.withFetchWord
  rw [h]
  exact ⟨rfl, rfl, fun hx => if_pos hx, fun h3 => ⟨if_pos h3, if_pos h3⟩⟩

/-- With nothing but an operation word, an edge that performs one operation performs the decoded one. -/
theorem step_withFetchWord_op {opw : BitVec 4} {b : Byte} (h : tableEnc nbits w = .ok (.op opw b))
    (hride : decodeOp ⟨opw, b⟩ ≠ .decode → opw &&& 0b1010 ≠ 0b0010) :
    step (s.withFetchWord nbits w) = exec (decodeOp ⟨opw, b⟩) (takeEdge (s.withFetchWord nbits w)) := by
  have hedge : nextEdge (s.withFetchWord nbits w) = ⟨opw, b⟩ := by rw [withFetchWord_op h]; rfl
  have halone : (decodeEdge ⟨opw, b⟩).alongside = false := by
    rw [← Bool.not_eq_true, decodeEdge_alongside_iff]
    rintro ⟨hdec, hx⟩
    refine hride (fun hd => ?_) ((opw_decode_iff opw).mpr hdec)
    obtain ⟨-, hc, hv, -⟩ := (decodeOp_eq_decode_iff _).mp hd
    simp [hc, hv] at hx
  rw [step_of_not_alongside (by rw [hedge, halone]), hedge]
  rfl

theorem step_withFetchWord_sb {x : BitVec 11} (h : tableEnc nbits w = .ok (.sb x))
    (hi : decode (tableCtx x) (.sb x) = .ok i) :
    step (s.withFetchWord nbits w) = exec i (takeEdge (s.withFetchWord nbits w)) := by
  obtain ⟨hedge, hst, hrehunt, hbody⟩ := withFetchWord_sb s h
  obtain ⟨k, hsel, rfl⟩ := decode_sb_ok hi
  have hpush : step (s.withFetchWord nbits w) = exec (.push (sbByte x)) (takeEdge (s.withFetchWord nbits w)) := by
    rw [step_of_not_alongside (by rw [hedge, decodeEdge_push]), hedge, decodeEdge_push]
  rw [hpush]
  apply exec_push_eq_row (k := k)
  · rw [takeEdge_sync, hst, sbWord_eta]
    exact encode_toInstr hsel
  · exact byteClass_toInstr k x
  · rw [takeEdge_sync, hst]
    exact hsel.of_tableCtx hrehunt hbody

/-- Settles O44, for a word of each of the two formats. -/
theorem placedWordRuns : Obligations.PlacedWordRuns := by
  unfold Obligations.PlacedWordRuns
  intro s nbits w i hword hride
  have h := decodeTable_of_decodeTableWord hword
  unfold decodeTable at h
  cases he : tableEnc nbits w with
  | error r => rw [he] at h; cases h
  | ok e =>
    rw [he] at h
    cases e with
    | op opw b =>
      obtain ⟨hn, rfl⟩ := tableEnc_op he
      cases h
      exact step_withFetchWord_op he fun hd hm => hride hn hd (congrArg BitVec.toNat hm)
    | sb x => exact step_withFetchWord_sb he h

end Sys2Proof.Machine

/-! The decimal grammar: what `splitSign` and `splitMantissa` take a text apart into (R58). -/

namespace Sys2Proof.Machine

/-- The signs of R58. -/
def IsSign (sign : List Byte) : Prop := sign = [] ∨ sign = [0x2B] ∨ sign = [0x2D]

/-- A mantissa as R58 writes it: the digits `ip` and, with a point, the digits `fp` after it. -/
def mantissaText (ip fp : List Byte) (point : Bool) : List Byte := ip ++ if point then 0x2E :: fp else []

/-- The parts of a mantissa of R58: digits, none behind a point that is not there, and at least one. -/
structure IsMantissa (ip fp : List Byte) (point : Bool) : Prop where
  ip_digits : ip.all isDigit = true
  fp_digits : fp.all isDigit = true
  no_point : point = false → fp = []
  some_digit : ip ≠ [] ∨ (point = true ∧ fp ≠ [])

theorem isDigit_iff (b : Byte) : isDigit b = true ↔ 0x30 ≤ b.toNat ∧ b.toNat ≤ 0x39 := by
  simp [isDigit]

theorem all_isDigit_iff (ds : List Byte) : ds.all isDigit = true ↔ ∀ b ∈ ds, 0x30 ≤ b.toNat ∧ b.toNat ≤ 0x39 := by
  simp only [List.all_eq_true, isDigit_iff]

/-- The value of a run of digits, the first one the most significant. -/
theorem digitsValue_eq_ofDigits (ds : List Byte) :
    digitsValue ds = Nat.ofDigits 10 (ds.reverse.map fun b => b.toNat - 0x30) := by
  induction ds using List.reverseRecOn with
  | nil => rfl
  | append_singleton ds b ih =>
    have hsnoc : digitsValue (ds ++ [b]) = 10 * digitsValue ds + (b.toNat - 0x30) := by simp [digitsValue]
    rw [hsnoc, ih, List.reverse_append, List.reverse_singleton, List.singleton_append, List.map_cons, Nat.ofDigits_cons]
    exact Nat.add_comm _ _

theorem spanDigits_spec (t : List Byte) : (spanDigits t).1 ++ (spanDigits t).2 = t ∧ (spanDigits t).1.all isDigit = true := by
  rw [spanDigits_eq]
  exact ⟨List.takeWhile_append_dropWhile, List.all_takeWhile⟩

theorem spanDigits_append {ds rest : List Byte} (hd : ds.all isDigit = true) (hr : spanDigits rest = ([], rest)) :
    spanDigits (ds ++ rest) = (ds, rest) := by
  induction ds with
  | nil => exact hr
  | cons b ds ih =>
    obtain ⟨hb, hds⟩ := Bool.and_eq_true_iff.mp hd
    simp [spanDigits, hb, ih hds]

theorem splitMantissa_spec {t ip fp : List Byte} (h : splitMantissa t = some (ip, fp)) :
    ∃ point, t = mantissaText ip fp point ∧ IsMantissa ip fp point := by
  obtain ⟨happ, hall⟩ := spanDigits_spec t
  unfold splitMantissa at h
  generalize spanDigits t = q at happ hall h
  obtain ⟨ds, rest⟩ := q
  dsimp only at happ hall h
  subst happ
  cases rest with
  | nil =>
    dsimp only at h
    split_ifs at h with hne
    cases h
    exact ⟨false, rfl, hall, rfl, fun _ => rfl, .inl (mt List.isEmpty_iff.mpr hne)⟩
  | cons p frac =>
    dsimp only at h
    split_ifs at h with hp
    obtain ⟨rfl, hfrac, hne⟩ := hp
    cases h
    refine ⟨true, rfl, hall, hfrac, fun hf => (nomatch hf), ?_⟩
    rw [Bool.not_eq_true', Bool.and_eq_false_iff] at hne
    exact hne.imp List.isEmpty_eq_false_iff.mp fun hf => ⟨rfl, List.isEmpty_eq_false_iff.mp hf⟩

theorem splitMantissa_mantissaText {ip fp : List Byte} {point : Bool} (h : IsMantissa ip fp point) :
    splitMantissa (mantissaText ip fp point) = some (ip, fp) := by
  cases point with
  | false =>
    have hspan : spanDigits (mantissaText ip fp false) = (ip, []) := spanDigits_append h.ip_digits rfl
    have hip : ip ≠ [] := h.some_digit.resolve_right fun hf => nomatch hf.1
    rw [splitMantissa, hspan, h.no_point rfl]
    exact if_neg (mt List.isEmpty_iff.mp hip)
  | true =>
    have hspan : spanDigits (mantissaText ip fp true) = (ip, 0x2E :: fp) := spanDigits_append h.ip_digits rfl
    have hne : (!(ip.isEmpty && fp.isEmpty)) = true := by
      rw [Bool.not_eq_true', Bool.and_eq_false_iff]
      exact h.some_digit.imp List.isEmpty_eq_false_iff.mpr fun hf => List.isEmpty_eq_false_iff.mpr hf.2
    rw [splitMantissa, hspan]
    exact if_pos ⟨rfl, h.fp_digits, hne⟩

theorem splitSign_spec (t : List Byte) :
    ∃ sign, IsSign sign ∧ t = sign ++ (splitSign t).2 ∧ (splitSign t).1 = decide (sign = [0x2D]) := by
  cases t with
  | nil => exact ⟨[], .inl rfl, rfl, rfl⟩
  | cons b t =>
    simp only [splitSign]
    split_ifs with hminus hplus
    · exact ⟨[0x2D], .inr (.inr rfl), hminus ▸ rfl, rfl⟩
    · exact ⟨[0x2B], .inr (.inl rfl), hplus ▸ rfl, rfl⟩
    · exact ⟨[], .inl rfl, rfl, rfl⟩

/-- A mantissa begins with a digit or the point, so it has no sign to split off. -/
theorem splitSign_mantissaText {ip fp : List Byte} {point : Bool} (h : IsMantissa ip fp point) :
    splitSign (mantissaText ip fp point) = (false, mantissaText ip fp point) := by
  cases ip with
  | nil =>
    obtain ⟨rfl, -⟩ := h.some_digit.resolve_left fun hne => hne rfl
    rfl
  | cons b ip =>
    obtain ⟨hb, -⟩ := Bool.and_eq_true_iff.mp h.ip_digits
    have hminus : b ≠ 0x2D := by rintro rfl; exact absurd hb (by decide)
    have hplus : b ≠ 0x2B := by rintro rfl; exact absurd hb (by decide)
    exact (if_neg hminus).trans (if_neg hplus)

theorem splitSign_append_mantissaText {sign ip fp : List Byte} {point : Bool} (hs : IsSign sign)
    (hm : IsMantissa ip fp point) :
    splitSign (sign ++ mantissaText ip fp point) = (decide (sign = [0x2D]), mantissaText ip fp point) := by
  rcases hs with rfl | rfl | rfl
  · exact splitSign_mantissaText hm
  · rfl
  · rfl

/-- Settles O23: sign and mantissa are found exactly where the grammar has them, and the value is read off them. -/
theorem parserIsTheGrammar : Obligations.ParserIsTheGrammar := by
  unfold Obligations.ParserIsTheGrammar
  intro text v
  constructor
  · intro h
    unfold parseLiteral at h
    split at h
    next => cases h
    next ip fp hsplit =>
      cases h
      obtain ⟨sign, hsign, htext, hneg⟩ := splitSign_spec text
      obtain ⟨point, hrest, hm⟩ := splitMantissa_spec hsplit
      rw [hrest] at htext
      have hdigits : (ip ++ fp).all isDigit = true := by simp [hm.ip_digits, hm.fp_digits]
      exact ⟨sign, ip, fp, point, htext, hsign, (all_isDigit_iff _).mp hdigits, hm.no_point, hm.some_digit, hneg,
        digitsValue_eq_ofDigits _, rfl⟩
  · rintro ⟨sign, ip, fp, point, rfl, hsign, hdigits, hpoint, hsome, hneg, hmant, hexp⟩
    obtain ⟨hip, hfp⟩ := List.forall_mem_append.mp hdigits
    have hm : IsMantissa ip fp point := ⟨(all_isDigit_iff ip).mpr hip, (all_isDigit_iff fp).mpr hfp, hpoint, hsome⟩
    obtain ⟨neg, mant, exp⟩ := v
    dsimp only at hneg hmant hexp
    rw [hneg, hmant, hexp, ← digitsValue_eq_ofDigits]
    show parseLiteral (sign ++ mantissaText ip fp point) = _
    simp only [parseLiteral, splitSign_append_mantissaText hsign hm, splitMantissa_mantissaText hm]

end Sys2Proof.Machine

/-! The class of a display text, and what a successful DECODE makes of it (R56, R57, R88 to R90). -/

namespace Sys2Proof.Machine

/-- The ordinal of a sentinel of R57 is its place in the list. -/
theorem ncvOrdinal_eq_some_iff {t : List Byte} {n : Nat} : ncvOrdinal t = some n ↔ (t, n) ∈ ncvList.zipIdx := by
  constructor
  · intro h
    obtain ⟨hn, heq, -⟩ := List.findIdx?_eq_some_iff_getElem.mp h
    rw [List.mem_zipIdx_iff_getElem?, List.getElem?_eq_getElem hn, eq_of_beq heq]
  · have hall : ∀ e ∈ ncvList.zipIdx, ncvOrdinal e.1 = some e.2 := by decide
    exact hall (t, n)

section classes
variable {t : List Byte}

theorem classifyText_of_ovl (h : t ∈ ovlSet) : classifyText t = some (.ovl, { neg := false, mant := 0, exp := 0 }) := if_pos h

/-- No NCV sentinel is an overload sentinel, so their order does not matter (R88, R89). -/
theorem classifyText_of_ncv {n : Nat} (h : ncvOrdinal t = some n) :
    classifyText t = some (.ncv, { neg := false, mant := n, exp := 0 }) := by
  have hdisjoint : ∀ e ∈ ncvList.zipIdx, e.1 ∉ ovlSet := by decide
  rw [classifyText, if_neg (hdisjoint _ (ncvOrdinal_eq_some_iff.mp h)), h]

theorem classifyText_of_no_sentinel (ho : t ∉ ovlSet) (hn : ncvOrdinal t = none) :
    classifyText t = (parseLiteral t).map fun v => (.num, v) := by
  rw [classifyText, if_neg ho, hn]

end classes

@[simp] theorem scale_neg (p : Params) (k : MeasClass) (v : Decimal) (u : String) : (scale p k v u).1.neg = v.neg := by
  unfold scale
  split
  · rfl
  · split <;> rfl

theorem execDecode_fields {s t : State} (h : exec .decode s = .next t) (hv : t.meas.valid = true) :
    ∃ m k v u, Operands s.params (fbufByte s) m k v u ∧ t.meas.fields = operandFields s.params (fbufByte s) k v u := by
  have hmeas := execDecode_meas h
  obtain ⟨m, k, v, u, ho, heq⟩ := decodedMeas_valid (hmeas ▸ hv)
  exact ⟨m, k, v, u, ho, congrArg Meas.fields (hmeas.trans heq)⟩

/-- Settles O22: the class is the one that `classifyText` finds for the stripped text, and the fields are written from it. -/
theorem displayTextDecidesTheClass : Obligations.DisplayTextDecidesTheClass := by
  unfold Obligations.DisplayTextDecidesTheClass
  intro s t h hv text ovl ncv
  obtain ⟨m, k, v, u, ho, hf⟩ := execDecode_fields h hv
  have htext : classifyText text = some (k, v) := ho.text
  refine ⟨fun hovl => ?_, fun n hncv => ?_, fun hovl hncv => ?_⟩
  · cases htext.symm.trans (classifyText_of_ovl hovl)
    have hcls : t.meas.fields.cls = 1 := congrArg Fields.cls hf
    exact ⟨hcls, congrArg Fields.strip hf, by simp [outNcvOrd, hcls]⟩
  · cases htext.symm.trans (classifyText_of_ncv (ncvOrdinal_eq_some_iff.mpr hncv))
    have hcls : t.meas.fields.cls = 2 := congrArg Fields.cls hf
    refine ⟨hcls, ?_, ?_⟩
    · rw [hf, operandFields, fieldsOf, scale_neg]
    · rw [outNcvOrd_of_ncv hv hcls, hf, operandFields, fieldsOf, scale_mant]
  · have hnone : ncvOrdinal text = none :=
      Option.eq_none_iff_forall_ne_some.mpr fun n hn => hncv n (ncvOrdinal_eq_some_iff.mp hn)
    rw [classifyText_of_no_sentinel hovl hnone] at htext
    obtain ⟨w, hw, hkv⟩ := Option.map_eq_some_iff.mp htext
    cases hkv
    refine ⟨congrArg Fields.cls hf, v, hw, ?_, ?_⟩
    · rw [hf, operandFields, fieldsOf, scale_neg]
    · rw [hf, operandFields, fieldsOf, scale_mant]

end Sys2Proof.Machine

/-! Each byte class and each operation without a byte as a next state written out, the row and the PUSH performing it together
(R65 to R78). -/

namespace Sys2Proof.Machine

section rows
variable {s : State} {st : BitVec 3} {b : Byte} {k : ByteClass} {i : Instr} {o : Result}

/-- Where R60 selects a row, the row's own effect is what the operation answers, and what PUSH of its byte answers (R65). -/
theorem row_and_push_of_selects (hst : s.sync.st = st) (he : encode i = .sb (sbWord st b)) (hk : i.byteClass = some k)
    (hrow : exec i s = ifSelected s st b k o) (hsel : k.Selects (classCtx s) st b) : exec i s = o ∧ exec (.push b) s = o := by
  subst hst
  have ho : exec i s = o := hrow.trans (ifSelected_of o rfl (classify_of_selects hsel))
  exact ⟨ho, (exec_push_eq_row he hk hsel).trans ho⟩

end rows

/-- Settles O4: the decoded operation is that of the one row selected. -/
theorem pushPerformsTheSelectedClass : Obligations.PushPerformsTheSelectedClass := by
  unfold Obligations.PushPerformsTheSelectedClass
  intro s b i h
  obtain ⟨k, hsel, rfl⟩ := decode_sb_ok h
  rw [sbState_sbWord, sbByte_sbWord] at hsel
  exact exec_push_eq (classify_of_selects hsel)

/-! The header search (R66 to R69). -/

/-- Settles O6: ST = 0 has a row of its own, COMPLETE and ERROR share one. -/
theorem firstHeaderByte : Obligations.FirstHeaderByte := by
  unfold Obligations.FirstHeaderByte
  refine ⟨fun s hst => row_and_push_of_selects hst rfl rfl rfl ⟨rfl, rfl⟩, fun s low hst => ?_⟩
  rw [← residentState_eq_add] at hst
  exact row_and_push_of_selects hst rfl rfl rfl ⟨residentState_cases low, rfl⟩

/-- Settles O7: ST = 0 has a row of its own, COMPLETE and ERROR share one. -/
theorem headerSearchNoise : Obligations.HeaderSearchNoise := by
  unfold Obligations.HeaderSearchNoise
  refine ⟨fun s b hst hb => row_and_push_of_selects hst rfl rfl rfl ⟨rfl, hb⟩, fun s low b hst hb => ?_⟩
  rw [← residentState_eq_add] at hst
  exact row_and_push_of_selects hst rfl rfl rfl ⟨residentState_cases low, hb⟩

/-- Settles O8 by the row B.HDR2. -/
theorem secondHeaderByte : Obligations.SecondHeaderByte := by
  unfold Obligations.SecondHeaderByte
  exact fun s hst => row_and_push_of_selects hst rfl rfl rfl ⟨rfl, rfl⟩

/-- Settles O9 by the rows B.REHUNT and B.RESYNC, whose conditions exclude each other. -/
theorem wrongSecondHeaderByte : Obligations.WrongSecondHeaderByte := by
  unfold Obligations.WrongSecondHeaderByte
  exact ⟨fun s hst hrehunt => row_and_push_of_selects hst rfl rfl rfl ⟨rfl, rfl, hrehunt⟩,
    fun s b hst h2 h1 => row_and_push_of_selects hst rfl rfl rfl ⟨rfl, h2, h1⟩⟩

/-! The length byte (R70, R71). -/

section length
variable {s : State} {b : Byte} (hst : s.sync.st = 2)
include hst

theorem exec_bLenOk_and_push (hb : legalLen b = true) :
    exec (.bLenOk b) s = .next (noEvent s (s.sync.lenOk b)) ∧ exec (.push b) s = .next (noEvent s (s.sync.lenOk b)) :=
  row_and_push_of_selects hst rfl rfl rfl ⟨rfl, hb⟩

theorem exec_bLenErr_and_push (hb : legalLen b = false) :
    exec (.bLenErr b) s = .next (errorEvent s { s.sync with len := b, st := 5 } 2)
    ∧ exec (.push b) s = .next (errorEvent s { s.sync with len := b, st := 5 } 2) :=
  row_and_push_of_selects hst rfl rfl rfl ⟨rfl, hb⟩

end length

theorem legalLen_eq_false_iff (b : Byte) : legalLen b = false ↔ b.toNat < 3 ∨ 60 < b.toNat := by
  rw [← Bool.not_eq_true, legalLen_iff]
  omega

/-- The sum of the header and the length byte needs no modulus (R63, R64). -/
theorem headerSum_toNat (b : Byte) : (headerSum b).toNat = 0xAB + 0xCD + b.toNat := by
  have hb := b.isLt
  simp [headerSum]
  omega

/-- Settles O10: the row's SUM is the statement's sum of integers. -/
theorem lengthByteAccepted : Obligations.LengthByteAccepted := by
  unfold Obligations.LengthByteAccepted
  intro s b hst h3 h60
  obtain ⟨hrow, hpush⟩ := exec_bLenOk_and_push hst ((legalLen_iff b).mpr ⟨h3, h60⟩)
  rw [← headerSum_toNat, BitVec.ofNat_toNat, BitVec.setWidth_eq]
  exact ⟨hrow, hpush.trans hrow.symm⟩

/-- Settles O11 by the row B.LEN_ERR. -/
theorem lengthByteRejected : Obligations.LengthByteRejected := by
  unfold Obligations.LengthByteRejected
  exact fun s b hst hb => exec_bLenErr_and_push hst ((legalLen_eq_false_iff b).mpr hb)

/-! The body (R72 to R75). -/

section body
variable {s : State} {b : Byte} (h3 : s.sync.st = 3)
include h3

theorem exec_push_data (hc : s.sync.cnt.toNat + 2 < s.sync.len.toNat) (hi : s.sync.cnt.toNat < 58) :
    exec (.push b) s = .next (noEvent s (s.sync.data b)) :=
  (exec_push_eq_bData h3 hc).trans (exec_bData_of_index h3 hc hi)

theorem exec_push_ckhi (hc : s.sync.cnt.toNat + 2 = s.sync.len.toNat) :
    exec (.push b) s = .next (noEvent s (s.sync.ckhiHeld b)) :=
  (exec_push_eq_bCkhi h3 hc).trans (exec_bCkhi_eq h3 hc)

theorem exec_push_ckloOk (hc : s.sync.cnt.toNat + 1 = s.sync.len.toNat) (hsum : s.sync.sum = joinBytes s.sync.ckhi b)
    (hl : s.sync.len.toNat ≤ 60) : exec (.push b) s = finish (some .frameOk) (completeFrame s b) :=
  (exec_push_eq_bCkloOk h3 hc hsum).trans (exec_bCkloOk_of_room h3 hc hsum hl)

theorem exec_push_ckloBad (hc : s.sync.cnt.toNat + 1 = s.sync.len.toNat) (hsum : s.sync.sum ≠ joinBytes s.sync.ckhi b) :
    exec (.push b) s = .next (errorEvent s (s.sync.ckloBad b) 3) :=
  (exec_push_eq_bCkloBad h3 hc hsum).trans (exec_bCkloBad_eq h3 hc hsum)

end body

/-- Settles O12: with a legal LEN, CNT is an index of ABUF, and B.DATA leaves FBUF alone. -/
theorem dataByteAccumulates : Obligations.DataByteAccumulates := by
  unfold Obligations.DataByteAccumulates
  intro s b h3 hc hlen
  have hi : s.sync.cnt.toNat < 58 := by omega
  refine ⟨_, exec_bData_of_index h3 hc hi, exec_push_data h3 hc hi, ?_, abufByte_data_same s b,
    fun i => abufByte_data_other s b, hostReadFbuf_congr rfl rfl⟩
  have hsum : BitVec.ofNat 16 (s.sync.sum.toNat + b.toNat) = s.sync.sum + b.setWidth 16 := by simp [BitVec.ofNat_add]
  have hcnt : BitVec.ofNat 6 (s.sync.cnt.toNat + 1) = s.sync.cnt + 1 := by simp [BitVec.ofNat_add]
  rw [hsum, hcnt]
  rfl

/-- Settles O13 by the row B.CKHI. -/
theorem checksumHighByteHeld : Obligations.ChecksumHighByteHeld := by
  unfold Obligations.ChecksumHighByteHeld
  exact fun s b h3 _ hc => ⟨exec_bCkhi_eq h3 hc, exec_push_ckhi h3 hc⟩

/-- Settles O14: the row publishes the frame, and FBUF reads back as the data bytes in ABUF. -/
theorem matchingChecksumPublishes : Obligations.MatchingChecksumPublishes := by
  unfold Obligations.MatchingChecksumPublishes
  intro s b h3 hge hle hc hsum
  rw [← eq_joinBytes_iff] at hsum
  rw [ofNat_eq_joinBytes]
  have hcnt : (s.sync.cnt + 1).toNat = s.sync.len.toNat := (cnt_succ_toNat (by omega)).trans hc
  exact ⟨_, exec_bCkloOk_of_room h3 hc hsum hle, exec_push_ckloOk h3 hc hsum hle, rfl, hcnt, flen_toNat hge hle, rfl, rfl,
    fun i hi => hostReadFbuf_published rfl hge hle hi, congrFun (abufByte_congr rfl rfl), rfl, rfl, rfl, rfl⟩

/-- Settles O15 by the row B.CKLO_BAD. -/
theorem mismatchingChecksumDiscards : Obligations.MismatchingChecksumDiscards := by
  unfold Obligations.MismatchingChecksumDiscards
  intro s b h3 _ hc hsum
  rw [ne_eq, ← eq_joinBytes_iff] at hsum
  rw [ofNat_eq_joinBytes]
  exact ⟨exec_bCkloBad_eq h3 hc hsum, exec_push_eq_bCkloBad h3 hc hsum⟩

/-! CLEAR, IDLE and the recovery from an illegal ST (R76 to R78). -/

section recovery
variable {s : State}

theorem idleSync_of_legal (h : ¬ (s.sync.st = 6 ∨ s.sync.st = 7)) : idleSync s = recordEvent none s :=
  if_neg fun hill => h ((illegalSt_iff s).mp hill)

theorem idleSync_of_illegal (h : s.sync.st = 6 ∨ s.sync.st = 7) : idleSync s = recoverSt s :=
  if_pos ((illegalSt_iff s).mpr h)

theorem exec_idle_of_legal (h : ¬ (s.sync.st = 6 ∨ s.sync.st = 7)) : exec .idle s = .next (noEvent s s.sync) := by
  rw [exec, execIdle, idleSync_of_legal h]
  rfl

theorem exec_idle_of_illegal (h : s.sync.st = 6 ∨ s.sync.st = 7) :
    exec .idle s = .next (errorEvent s { s.sync with st := 5 } 4) := by
  rw [exec, execIdle, idleSync_of_illegal h]
  rfl

end recovery

/-- DECODE rides along only with dec_start, and only on an edge that CLEARs or PUSHes (R59). -/
theorem decodeEdge_alone {e : Edge} (h : e.decStart = false ∨ (e.clr || e.inValid) = false) :
    (decodeEdge e).alongside = false := by
  rw [← Bool.not_eq_true, decodeEdge_alongside_iff]
  rintro ⟨⟨-, hd⟩, hx⟩
  simp [hd, hx] at h

/-- The synchronizer's operation at an edge with rst = 0 and clr = 0: PUSH of a byte where one is presented, else IDLE, whether
dec_start is set or not (R59, R104). -/
def syncOp (e : Edge) : Instr := if e.inValid then .push e.inByte else .idle

/-- An edge with rst = 0 and clr = 0 does what the synchronizer's operation does, the MR registers apart (R10, R59). -/
theorem step_of_syncOp {s u : State} (hr : (nextEdge s).rst = false) (hc : (nextEdge s).clr = false)
    (h : exec (syncOp (nextEdge s)) (takeEdge s) = .next u) : ∃ m, step s = .next { u with meas := m } := by
  unfold syncOp at h
  cases hv : (nextEdge s).inValid with
  | true =>
    rw [hv, if_pos rfl] at h
    have hmain : (decodeEdge (nextEdge s)).main = .push (nextEdge s).inByte := (decodeOp_eq_push_iff _).mpr ⟨hr, hc, hv⟩
    cases ha : (decodeEdge (nextEdge s)).alongside with
    | true =>
      rw [step_of_alongside ha, hmain, h, exec_decode]
      exact ⟨_, rfl⟩
    | false =>
      rw [step_of_not_alongside ha, hmain, h]
      exact ⟨_, rfl⟩
  | false =>
    rw [hv, if_neg Bool.false_ne_true] at h
    rw [step_of_not_alongside (decodeEdge_alone (.inr (Bool.or_eq_false_iff.mpr ⟨hc, hv⟩)))]
    cases hd : (nextEdge s).decStart with
    | true =>
      rw [show (decodeEdge (nextEdge s)).main = .decode from (decodeOp_eq_decode_iff _).mpr ⟨hr, hc, hv, hd⟩]
      cases h
      exact ⟨_, rfl⟩
    | false =>
      rw [show (decodeEdge (nextEdge s)).main = .idle from (decodeOp_eq_idle_iff _).mpr ⟨hr, hc, hv, hd⟩, h]
      exact ⟨_, rfl⟩

/-- Settles O2: CLEAR is the first operation of its edge, a byte or not, and DECODE rides along (R59, R104). -/
theorem clearAbandonsTheFrame : Obligations.ClearAbandonsTheFrame := by
  unfold Obligations.ClearAbandonsTheFrame
  have hmain : ∀ s : State, (nextEdge s).rst = false → (nextEdge s).clr = true → (decodeEdge (nextEdge s)).main = .clear :=
    fun s hr hc => (decodeOp_eq_clear_iff _).mpr ⟨hr, hc⟩
  refine ⟨fun s => rfl, fun s hr hc hd => ?_, fun s hr hc hd => ⟨_, exec_decode _, ?_⟩⟩
  · rw [step_of_not_alongside (decodeEdge_alone (.inl hd)), hmain s hr hc]
  · have ha : (decodeEdge (nextEdge s)).alongside = true :=
      (decodeEdge_alongside_iff _).mpr ⟨⟨hr, hd⟩, Bool.or_eq_true_iff.mpr (.inl hc)⟩
    rw [step_of_alongside ha, hmain s hr hc, exec_decode]
    rfl

/-- Settles O3: with a legal ST there is no recovery. -/
theorem idleChangesOnlyTheStrobes : Obligations.IdleChangesOnlyTheStrobes := by
  unfold Obligations.IdleChangesOnlyTheStrobes
  exact fun s h6 h7 => exec_idle_of_legal (not_or.mpr ⟨h6, h7⟩)

/-- Settles O5: the row, PUSH and IDLE recover alike, and every edge with rst = 0 and clr = 0 performs one of the latter two. -/
theorem illegalStateRecovers : Obligations.IllegalStateRecovers := by
  unfold Obligations.IllegalStateRecovers
  intro s low b hst
  rw [← illegalState_eq_add] at hst
  have hill : s.sync.st = 6 ∨ s.sync.st = 7 := hst ▸ illegalState_cases low
  have hpush : ∀ (u : State) (x : Byte), u.sync.st = illegalState low →
      exec (.stIllegal low x) u = .next (errorEvent u { u.sync with st := 5 } 4)
      ∧ exec (.push x) u = .next (errorEvent u { u.sync with st := 5 } 4) :=
    fun u x hu => row_and_push_of_selects hu rfl rfl rfl (illegalState_cases low)
  refine ⟨(hpush s b hst).1, (hpush s b hst).2, exec_idle_of_illegal hill, fun hr hc => ?_⟩
  have hop : exec (syncOp (nextEdge s)) (takeEdge s) = .next (errorEvent (takeEdge s) { s.sync with st := 5 } 4) := by
    unfold syncOp
    split
    · exact (hpush (takeEdge s) _ hst).2
    · exact exec_idle_of_illegal (s := takeEdge s) hill
  obtain ⟨m, hm⟩ := step_of_syncOp hr hc hop
  exact ⟨_, hm, rfl⟩

/-- Settles O21: DECODE reads neither ST nor what the recovery writes. -/
theorem decodeRunsDuringRecovery : Obligations.DecodeRunsDuringRecovery := by
  unfold Obligations.DecodeRunsDuringRecovery
  intro s low hst
  have hill : s.sync.st = 6 ∨ s.sync.st = 7 := by
    rw [hst, ← illegalState_eq_add]
    exact illegalState_cases low
  refine ⟨_, exec_decode s, ?_, _, exec_decode _, rfl⟩
  rw [idleSync_of_illegal hill]
  rfl

end Sys2Proof.Machine

/-! The checksum of a legal frame (R63, R64). -/

namespace Sys2Proof.Machine

/-- As long as no carry leaves the 16 bits, `cks` is the sum of the header, the length byte and the data (R63). -/
theorem cks_toNat (len : Byte) (d : List Byte) (hd : d.length ≤ 58) :
    (cks len d).toNat = 0xAB + 0xCD + len.toNat + (d.map BitVec.toNat).sum ∧ (d.map BitVec.toNat).sum ≤ 255 * d.length := by
  induction d using List.reverseRecOn with
  | nil => exact ⟨headerSum_toNat len, Nat.le_refl 0⟩
  | append_singleton d b ih =>
    rw [List.length_append, List.length_singleton] at hd ⊢
    obtain ⟨hsum, hle⟩ := ih (by omega)
    have hlen := len.isLt
    have hb := b.isLt
    rw [cks_append, BitVec.toNat_add, hsum, BitVec.toNat_setWidth, List.map_append, List.sum_append, List.map_singleton,
      List.sum_singleton]
    omega

/-- Settles O29: the bounds of the exact sum, read off its addends. -/
theorem checksumBounds : Obligations.ChecksumBounds := by
  unfold Obligations.ChecksumBounds
  intro len d h3 h60 hlen
  obtain ⟨hsum, hle⟩ := cks_toNat len d (by omega)
  have hlo : 379 ≤ (cks len d).toNat := by omega
  have hhi : (cks len d).toNat ≤ 15226 := by omega
  refine ⟨hsum, hlo, hhi, by omega, by omega, fun ch cl hch heq => ?_⟩
  have hcl := cl.isLt
  rw [← heq, joinBytes_toNat] at hlo hhi
  rcases hch with rfl | hch
  · simp at hlo
    omega
  · omega

end Sys2Proof.Machine

/-! Runs over edges that raise no event: the header search, and the bytes of one frame (R80, R81). -/

namespace Sys2Proof.Machine
variable {s t u : State} {b : Byte}

theorem run_succ (h : step s = .next u) (k : Nat) : Sys2Proof.core.run (k + 1) s = Sys2Proof.core.run k u := by
  have hstep : Sys2Proof.core.step s = .next u := h
  simp only [Host.Core.run, hstep]

theorem run_one (h : step s = .next u) : Sys2Proof.core.run 1 s = .next u := run_succ h 0

theorem nextEdge_of_inputs {e : Edge} {es : List Edge} (h : s.inputs = e :: es) : nextEdge s = e := by
  rw [nextEdge, h]

/-- A byte alone on its edge is pushed, and nothing else happens (R59). -/
theorem step_of_push (h : nextEdge s = ⟨0b0001, b⟩) : step s = exec (.push b) (takeEdge s) := by
  rw [step_of_not_alongside (by rw [h, decodeEdge_push]), h, decodeEdge_push]

theorem run_two_pushes {a : Byte} {rest : List Edge} (hin : s.inputs = pushEdges [a, b] ++ rest)
    (ha : exec (.push a) (takeEdge s) = .next u) (hb : exec (.push b) (takeEdge u) = .next t) :
    Sys2Proof.core.run 2 s = .next t := by
  have hin' : u.inputs = ⟨0b0001, b⟩ :: rest := by rw [(execPush_move ha).inputs_eq, takeEdge_inputs, hin]; rfl
  rw [run_succ ((step_of_push (nextEdge_of_inputs hin)).trans ha) 1]
  exact run_one ((step_of_push (nextEdge_of_inputs hin')).trans hb)

/-- An event leaves the synchronizer in COMPLETE or ERROR (R99). -/
theorem SyncMove.st_of_event (m : SyncMove s b t) (h : t.ev.evStb = true) : t.sync.st = 4 ∨ t.sync.st = 5 := by
  cases m
  case ckloOk => exact .inl rfl
  case recover | lenErr | ckloBad => exact .inr rfl
  case clear | idle | hunt | lenOk | data | ckhi => cases h

/-- A row of the header search leaves its state in ST (R66 to R69). -/
theorem st_of_hunt_row {st v : BitVec 3} {k : ByteClass} (h : ifSelected s st b k (finish none (setSt v s)) = .next t) :
    t.sync.st = v := by
  rw [finish_next (ifSelected_next h).2.2]
  rfl

/-- Settles O49: the moves that raise an event, the rows that search on, and the two header bytes from ST = 1. -/
theorem headerSearchRecovers : Obligations.HeaderSearchRecovers := by
  unfold Obligations.HeaderSearchRecovers
  refine ⟨fun s t h hev => ?_, fun s t low b h => ?_, fun s rest hst hin => ?_⟩
  · cases hr : (nextEdge s).rst with
    | true =>
      rw [step_reset hr] at h
      cases h
      cases hev
    | false =>
      obtain ⟨u, m, ht⟩ := step_move_but_meas hr h
      rw [ht] at hev ⊢
      exact m.st_of_event hev
  · rcases h with h | h | h <;> exact st_of_hunt_row h
  · cases hrehunt : s.params.h2Rehunt with
    | true =>
      have hab := (wrongSecondHeaderByte.1 (takeEdge s) hst hrehunt).2
      exact ⟨_, run_two_pushes hin hab (secondHeaderByte (takeEdge _) rfl).2, rfl, rfl⟩
    | false =>
      have hoff : ¬ ((0xAB : Byte) = 0xAB ∧ (takeEdge s).params.h2Rehunt = true) := fun h => nomatch hrehunt.symm.trans h.2
      have hab := (wrongSecondHeaderByte.2 (takeEdge s) 0xAB hst (by decide) hoff).2
      exact ⟨_, run_two_pushes hin hab (headerSearchNoise.1 (takeEdge _) 0xCD rfl (by decide)).2, rfl, rfl⟩

theorem eq_add_of_resident {st : BitVec 3} (h : st = 4 ∨ st = 5) : st = 4 + (sbLow (sbWord st 0)).setWidth 3 := by
  rw [← residentState_eq_add, residentState_sbLow 0 h]

theorem syncOp_of_byte {e : Edge} (h : e.inValid = true) : syncOp e = .push e.inByte := if_pos h

theorem presentedBytes_append (es es' : List Edge) : presentedBytes (es ++ es') = presentedBytes es ++ presentedBytes es' := by
  simp [presentedBytes]

theorem presentedBytes_singleton (e : Edge) : presentedBytes [e] = if e.inValid then [e.inByte] else [] := by
  cases hv : e.inValid <;> simp [presentedBytes, hv]

/-- Between `s` and `u` no event was raised and no frame published, and the last edge was one of those between. -/
structure QuietTo (s u : State) : Prop where
  frame : u.frame = s.frame
  fbufDraw : u.fbufDraw = s.fbufDraw
  ev : u.ev = { s.ev with evStb := false }

theorem QuietTo.trans (h : QuietTo s t) (h' : QuietTo t u) : QuietTo s u where
  frame := h'.frame.trans h.frame
  fbufDraw := h'.fbufDraw.trans h.fbufDraw
  ev := by rw [h'.ev, h.ev]

/-- READ_BODY of a frame of length byte `len`, with the data bytes `d` accepted so far (R72). -/
structure BodyHolds (len : Byte) (d : List Byte) (t : State) : Prop where
  st_eq : t.sync.st = 3
  len_eq : t.sync.len = len
  sum_eq : t.sync.sum = cks len d
  data_eq : ∀ i < d.length, some (abufByte t i) = d[i]?

/-- `t` is inside, or just before, the frame of `len`, `d`, `ch` and `cl`; the list is the rest of its bytes (R66 to R75). -/
inductive Awaits (len ch cl : Byte) (d : List Byte) (t : State) : List Byte → Prop where
  | header : t.sync.st = 0 ∨ t.sync.st = 4 ∨ t.sync.st = 5 → Awaits len ch cl d t (frameBytes len d ch cl)
  | header2 : t.sync.st = 1 → Awaits len ch cl d t (0xCD :: len :: (d ++ [ch, cl]))
  | length : t.sync.st = 2 → Awaits len ch cl d t (len :: (d ++ [ch, cl]))
  | body (d₁ d₂ : List Byte) : d = d₁ ++ d₂ → BodyHolds len d₁ t → t.sync.cnt.toNat = d₁.length →
      Awaits len ch cl d t (d₂ ++ [ch, cl])
  | checksumLow : BodyHolds len d t → t.sync.cnt.toNat = d.length + 1 → t.sync.ckhi = ch → Awaits len ch cl d t [cl]

theorem BodyHolds.congr {len : Byte} {d : List Byte} (h : BodyHolds len d t) (hst : u.sync.st = t.sync.st)
    (hl : u.sync.len = t.sync.len) (hm : u.sync.sum = t.sync.sum) (ha : u.sync.abuf = t.sync.abuf)
    (hd : u.abufDraw = t.abufDraw) : BodyHolds len d u where
  st_eq := hst.trans h.st_eq
  len_eq := hl.trans h.len_eq
  sum_eq := hm.trans h.sum_eq
  data_eq := by rw [abufByte_congr ha hd]; exact h.data_eq

/-- B.DATA appends its byte to the data accepted (R72). -/
theorem BodyHolds.data {len : Byte} {d : List Byte} (h : BodyHolds len d t) (hcnt : t.sync.cnt.toNat = d.length) :
    BodyHolds len (d ++ [b]) (noEvent t (t.sync.data b)) where
  st_eq := h.st_eq
  len_eq := h.len_eq
  sum_eq := by
    rw [cks_append, ← h.sum_eq]
    rfl
  data_eq i hi := by
    rw [List.length_append, List.length_singleton] at hi
    rcases Nat.lt_succ_iff_lt_or_eq.mp hi with hlt | rfl
    · rw [abufByte_data_other t b (by omega), List.getElem?_append_left hlt]
      exact h.data_eq i hlt
    · rw [List.getElem?_concat_length, ← hcnt, abufByte_data_same]

section frame
variable {len ch cl : Byte} {d r : List Byte}

namespace Awaits

theorem congr (h : Awaits len ch cl d t r) (hs : u.sync = t.sync) (hd : u.abufDraw = t.abufDraw) : Awaits len ch cl d u r := by
  have hbody : ∀ {d'}, BodyHolds len d' t → BodyHolds len d' u := fun hb =>
    hb.congr (by rw [hs]) (by rw [hs]) (by rw [hs]) (by rw [hs]) hd
  cases h
  case header hst => exact .header (hs ▸ hst)
  case header2 hst => exact .header2 (hs ▸ hst)
  case length hst => exact .length (hs ▸ hst)
  case body d₁ d₂ hd' hb hcnt => exact .body d₁ d₂ hd' (hbody hb) (hs ▸ hcnt)
  case checksumLow hb hcnt hch => exact .checksumLow (hbody hb) (hs ▸ hcnt) (hs ▸ hch)

theorem legal (h : Awaits len ch cl d t r) : ¬ (t.sync.st = 6 ∨ t.sync.st = 7) := by
  cases h
  case header hst => rcases hst with hst | hst | hst <;> rw [hst] <;> decide
  case header2 hst | length hst => rw [hst]; decide
  case body hb _ | checksumLow hb _ _ => rw [hb.st_eq]; decide

/-- Only the low checksum byte is the last one of a frame. -/
theorem last (h : Awaits len ch cl d t [b]) :
    BodyHolds len d t ∧ t.sync.cnt.toNat = d.length + 1 ∧ t.sync.ckhi = ch ∧ b = cl := by
  generalize hbs : [b] = bs at h
  cases h
  case checksumLow hb hcnt hch => exact ⟨hb, hcnt, hch, List.singleton_inj.mp hbs⟩
  case header | header2 | length | body =>
    have hlen := congrArg List.length hbs
    simp [frameBytes] at hlen

variable (h60 : len.toNat ≤ 60) (hd : d.length + 2 = len.toNat)
include h60 hd

/-- Every byte of a frame but the last is accepted without an event. -/
theorem push (h3 : 3 ≤ len.toNat) (h : Awaits len ch cl d t (b :: r)) (hr : r ≠ []) :
    ∃ y, exec (.push b) t = .next (noEvent t y) ∧ Awaits len ch cl d (noEvent t y) r := by
  generalize hbs : b :: r = bs at h
  cases h
  case header hst =>
    obtain ⟨rfl, rfl⟩ := List.cons.inj hbs
    rcases hst with hst | hst
    · exact ⟨_, (firstHeaderByte.1 t hst).2, .header2 rfl⟩
    · exact ⟨_, (firstHeaderByte.2 t _ (eq_add_of_resident hst)).2, .header2 rfl⟩
  case header2 hst =>
    obtain ⟨rfl, rfl⟩ := List.cons.inj hbs
    exact ⟨_, (secondHeaderByte t hst).2, .length rfl⟩
  case length hst =>
    obtain ⟨rfl, rfl⟩ := List.cons.inj hbs
    exact ⟨_, (exec_bLenOk_and_push hst ((legalLen_iff b).mpr ⟨h3, h60⟩)).2,
      .body [] d rfl ⟨rfl, rfl, rfl, fun i hi => absurd hi (Nat.not_lt_zero i)⟩ rfl⟩
  case body d₁ d₂ hsplit hb hcnt =>
    have hlen : d.length = d₁.length + d₂.length := by rw [hsplit, List.length_append]
    have hnext : (t.sync.cnt + 1).toNat = d₁.length + 1 := by rw [cnt_succ_toNat (by omega), hcnt]
    cases d₂ with
    | nil =>
      obtain ⟨rfl, rfl⟩ := List.cons.inj hbs
      rw [List.append_nil] at hsplit
      subst hsplit
      have hc : t.sync.cnt.toNat + 2 = t.sync.len.toNat := by rw [hb.len_eq, hcnt, hd]
      exact ⟨_, exec_push_ckhi hb.st_eq hc, .checksumLow (hb.congr rfl rfl rfl rfl rfl) hnext rfl⟩
    | cons x d₂ =>
      obtain ⟨rfl, rfl⟩ := List.cons.inj hbs
      rw [List.length_cons] at hlen
      have hc : t.sync.cnt.toNat + 2 < t.sync.len.toNat := by rw [hb.len_eq]; omega
      refine ⟨_, exec_push_data hb.st_eq hc (by omega), .body (d₁ ++ [b]) d₂ ?_ (hb.data hcnt) ?_⟩
      · rw [hsplit, List.append_assoc, List.singleton_append]
      · rw [List.length_append, List.length_singleton]
        exact hnext
  case checksumLow =>
    obtain ⟨-, rfl⟩ := List.cons.inj hbs
    exact absurd rfl hr

/-- An edge without RESET and CLEAR that presents no byte, or one that is not the frame's last, is quiet. -/
theorem edge (h3 : 3 ≤ len.toNat) {e : Edge} (he : nextEdge t = e) (hrst : e.rst = false) (hclr : e.clr = false)
    (h : Awaits len ch cl d t (presentedBytes [e] ++ r)) (hr : r ≠ []) :
    ∃ u, step t = .next u ∧ QuietTo t u ∧ u.inputs = t.inputs.tail ∧ Awaits len ch cl d u r := by
  have hop : ∃ y, exec (syncOp e) (takeEdge t) = .next (noEvent (takeEdge t) y)
      ∧ Awaits len ch cl d (noEvent (takeEdge t) y) r := by
    have h' : Awaits len ch cl d (takeEdge t) (presentedBytes [e] ++ r) := h.congr rfl rfl
    unfold syncOp
    cases hv : e.inValid with
    | true =>
      rw [presentedBytes_singleton, hv] at h'
      exact h'.push h60 hd h3 hr
    | false =>
      rw [presentedBytes_singleton, hv] at h'
      exact ⟨_, exec_idle_of_legal h'.legal, h'.congr rfl rfl⟩
  subst he
  obtain ⟨y, hy, hnext⟩ := hop
  obtain ⟨m, hm⟩ := step_of_syncOp hrst hclr hy
  exact ⟨_, hm, ⟨rfl, rfl, rfl⟩, rfl, hnext.congr rfl rfl⟩

/-- So is a run of such edges. -/
theorem run (h3 : 3 ≤ len.toNat) {es more : List Edge} (hne : es ≠ []) (hes : ∀ e ∈ es, e.rst = false ∧ e.clr = false)
    (hin : t.inputs = es ++ more) (h : Awaits len ch cl d t (presentedBytes es ++ r)) (hr : r ≠ []) :
    ∃ u, (∀ k, Sys2Proof.core.run (es.length + k) t = Sys2Proof.core.run k u) ∧ QuietTo t u ∧ u.inputs = more
      ∧ Awaits len ch cl d u r := by
  induction es generalizing t with
  | nil => exact absurd rfl hne
  | cons e es ih =>
    rw [List.forall_mem_cons] at hes
    obtain ⟨⟨hrst, hclr⟩, hes⟩ := hes
    have hbytes : presentedBytes (e :: es) ++ r = presentedBytes [e] ++ (presentedBytes es ++ r) := by
      rw [← List.append_assoc, ← presentedBytes_append, List.singleton_append]
    rw [hbytes] at h
    obtain ⟨u, hstep, hquiet, hin', hu⟩ := h.edge h60 hd h3 (nextEdge_of_inputs hin) hrst hclr (by simp [hr])
    rw [hin, List.cons_append, List.tail_cons] at hin'
    have hrun : ∀ k, Sys2Proof.core.run ((e :: es).length + k) t = Sys2Proof.core.run (es.length + k) u := fun k => by
      rw [List.length_cons, Nat.succ_add]
      exact run_succ hstep _
    by_cases hes' : es = []
    · subst hes'
      exact ⟨u, fun k => by rw [hrun, List.length_nil, Nat.zero_add], hquiet, hin', hu⟩
    · obtain ⟨v, hrun', hquiet', hin'', hv⟩ := ih hes' hes hin' hu
      exact ⟨v, fun k => (hrun k).trans (hrun' k), hquiet.trans hquiet', hin'', hv⟩

end Awaits

/-! The edge of the last byte (R74, R75). -/

section last
variable (hrst : (nextEdge u).rst = false) (hclr : (nextEdge u).clr = false) (hv : (nextEdge u).inValid = true)
  (hd : d.length + 2 = len.toNat) (h : Awaits len ch cl d u [(nextEdge u).inByte])
include hrst hclr hv hd h

theorem step_accepts_frame (h60 : len.toNat ≤ 60) (hsum : joinBytes ch cl = cks len d) :
    ∃ t, step u = .next t ∧ t.inputs = u.inputs.tail ∧ t.sync.st = 4
      ∧ t.ev = { lastEv := 1, evStb := true, eseq := u.ev.eseq } ∧ t.frame = (publish u).frame := by
  obtain ⟨hb, hcnt, rfl, rfl⟩ := h.last
  have hc : u.sync.cnt.toNat + 1 = u.sync.len.toNat := by rw [hb.len_eq, hcnt, ← hd]
  have hsum' : u.sync.sum = joinBytes u.sync.ckhi (nextEdge u).inByte := hb.sum_eq.trans hsum.symm
  have hpush := exec_push_ckloOk (s := takeEdge u) hb.st_eq hc hsum' (hb.len_eq ▸ h60)
  rw [← syncOp_of_byte hv] at hpush
  obtain ⟨m, hm⟩ := step_of_syncOp hrst hclr hpush
  exact ⟨_, hm, rfl, rfl, rfl, rfl⟩

theorem step_rejects_frame (hsum : joinBytes ch cl ≠ cks len d) :
    ∃ t, step u = .next t ∧ t.inputs = u.inputs.tail ∧ t.sync.st = 5
      ∧ t.ev = { lastEv := 3, evStb := true, eseq := u.ev.eseq + 1 } ∧ t.frame = u.frame ∧ t.fbufDraw = u.fbufDraw := by
  obtain ⟨hb, hcnt, rfl, rfl⟩ := h.last
  have hc : u.sync.cnt.toNat + 1 = u.sync.len.toNat := by rw [hb.len_eq, hcnt, ← hd]
  have hsum' : u.sync.sum ≠ joinBytes u.sync.ckhi (nextEdge u).inByte := fun heq => hsum (heq.symm.trans hb.sum_eq)
  have hpush := exec_push_ckloBad (s := takeEdge u) hb.st_eq hc hsum'
  rw [← syncOp_of_byte hv] at hpush
  obtain ⟨m, hm⟩ := step_of_syncOp hrst hclr hpush
  exact ⟨_, hm, rfl, rfl, rfl, rfl, rfl⟩

end last
end frame

/-- Settles O48: quiet edges up to the last one, whose byte completes the frame or fails it. -/
theorem frameAcceptance : Obligations.FrameAcceptance := by
  unfold Obligations.FrameAcceptance
  intro s len ch cl d es last rest hst h3 h60 hd hes hv hbytes hin
  have hstart : Awaits len ch cl d s (presentedBytes (es ++ [last])) := hbytes ▸ .header hst
  have hfront : ∀ e ∈ es, e.rst = false ∧ e.clr = false := fun e he => hes e (List.mem_append_left _ he)
  obtain ⟨hrst, hclr⟩ := hes last (by simp)
  have hlast : presentedBytes [last] = [last.inByte] := by
    rw [presentedBytes_singleton]
    exact if_pos hv
  rw [presentedBytes_append, hlast] at hstart hbytes
  constructor
  · intro n h1 hn
    have hsplit : presentedBytes es = presentedBytes (es.take n) ++ presentedBytes (es.drop n) := by
      rw [← presentedBytes_append, List.take_append_drop]
    rw [hsplit, List.append_assoc] at hstart
    have hlen : (es.take n).length = n := List.length_take_of_le hn
    have hne : es.take n ≠ [] := List.ne_nil_of_length_pos (by omega)
    have hin' : s.inputs = es.take n ++ (es.drop n ++ last :: rest) := by
      rw [hin, ← List.append_assoc, List.take_append_drop]
    obtain ⟨u, hrun, hquiet, -, -⟩ :=
      hstart.run h60 hd h3 hne (fun e he => hfront e (List.mem_of_mem_take he)) hin' (by simp)
    have hrun := hrun 0
    rw [hlen] at hrun
    exact ⟨u, hrun, hquiet.ev, hquiet.frame, hostReadFbuf_congr hquiet.frame hquiet.fbufDraw⟩
  · have hne : es ≠ [] := by
      rintro rfl
      simp [presentedBytes, frameBytes] at hbytes
    obtain ⟨u, hrun, hquiet, hin', hu⟩ := hstart.run h60 hd h3 hne hfront hin (by simp)
    have he : nextEdge u = last := nextEdge_of_inputs hin'
    rw [← he] at hrst hclr hv hu
    have hrest : u.inputs.tail = rest := by rw [hin', List.tail_cons]
    have heseq : u.ev.eseq = s.ev.eseq := by rw [hquiet.ev]
    by_cases hsum : joinBytes ch cl = cks len d
    · obtain ⟨t, hstep, hin, hst, hev, hf⟩ := step_accepts_frame hrst hclr hv hd hu h60 hsum
      obtain ⟨hb, -, -, -⟩ := hu.last
      have hulen : u.sync.len.toNat = d.length + 2 := by rw [hb.len_eq, hd]
      have hflen : t.frame.flen.toNat = u.sync.len.toNat - 2 := hf ▸ flen_toNat (by omega) (by omega)
      have hread : ∀ i, i < d.length → hostReadFbuf t i = d[i]? := fun i hi =>
        (hostReadFbuf_published hf (by omega) (by omega) (by omega)).trans (hb.data_eq i hi)
      have hseq : t.frame.fseq = s.frame.fseq + 1 := by rw [hf, ← hquiet.frame]; rfl
      exact ⟨t, (hrun 1).trans (run_one hstep), hin.trans hrest,
        fun _ => ⟨hst, heseq ▸ hev, congrArg FrameOut.fvalid hf, by omega, hseq, hread⟩, fun h => absurd hsum h⟩
    · obtain ⟨t, hstep, hin, hst, hev, hf, hdraw⟩ := step_rejects_frame hrst hclr hv hd hu hsum
      have hframe : t.frame = s.frame := hf.trans hquiet.frame
      exact ⟨t, (hrun 1).trans (run_one hstep), hin.trans hrest, fun h => absurd h hsum,
        fun _ => ⟨hst, heseq ▸ hev, hframe, hostReadFbuf_congr hframe (hdraw.trans hquiet.fbufDraw)⟩⟩

end Sys2Proof.Machine

/-! No edge stalls a state that satisfies Inv: a row always holds, and its index is in its buffer (R60, R123). -/

namespace Sys2Proof.Machine
variable {s t u : State} {b : Byte}

theorem eq_add_of_illegal {st : BitVec 3} (h : st = 6 ∨ st = 7) : st = 6 + (sbLow (sbWord st 0)).setWidth 3 := by
  rw [← illegalState_eq_add, illegalState_sbLow 0 h]

/-- A selected row goes on: with LEN at most 60, B.DATA and B.CKLO_OK stay within their buffers (R36). -/
theorem exec_push_next_of_selects {k : ByteClass} (hsel : k.Selects (classCtx s) s.sync.st b)
    (hlen : s.sync.st = 3 → s.sync.len.toNat ≤ 60) : ∃ t, exec (.push b) s = .next t := by
  cases k
  case hdr1 => obtain ⟨hst, rfl⟩ := hsel; exact ⟨_, (firstHeaderByte.1 s hst).2⟩
  case hdr1Resident => obtain ⟨hst, rfl⟩ := hsel; exact ⟨_, (firstHeaderByte.2 s _ (eq_add_of_resident hst)).2⟩
  case noise => obtain ⟨hst, hb⟩ := hsel; exact ⟨_, (headerSearchNoise.1 s b hst hb).2⟩
  case noiseResident => obtain ⟨hst, hb⟩ := hsel; exact ⟨_, (headerSearchNoise.2 s _ b (eq_add_of_resident hst) hb).2⟩
  case hdr2 => obtain ⟨hst, rfl⟩ := hsel; exact ⟨_, (secondHeaderByte s hst).2⟩
  case rehunt => obtain ⟨hst, rfl, hc⟩ := hsel; exact ⟨_, (wrongSecondHeaderByte.1 s hst hc).2⟩
  case resync => obtain ⟨hst, h2, h1⟩ := hsel; exact ⟨_, (wrongSecondHeaderByte.2 s b hst h2 h1).2⟩
  case lenOk => obtain ⟨hst, hb⟩ := hsel; exact ⟨_, (exec_bLenOk_and_push hst hb).2⟩
  case lenErr => obtain ⟨hst, hb⟩ := hsel; exact ⟨_, (exec_bLenErr_and_push hst hb).2⟩
  case data =>
    obtain ⟨h3, hc⟩ := hsel
    rw [classCtx_cnt, classCtx_len] at hc
    have hi : s.sync.cnt.toNat < 58 := by have := hlen h3; omega
    exact ⟨_, exec_push_data h3 hc hi⟩
  case ckhi => obtain ⟨h3, hc⟩ := hsel; exact ⟨_, exec_push_ckhi h3 hc⟩
  case ckloOk => obtain ⟨h3, hc, hsum⟩ := hsel; exact ⟨_, exec_push_ckloOk h3 hc hsum (hlen h3)⟩
  case ckloBad => obtain ⟨h3, hc, hsum⟩ := hsel; exact ⟨_, exec_push_ckloBad h3 hc hsum⟩
  case illegal => exact ⟨_, (illegalStateRecovers s _ b (eq_add_of_illegal hsel)).2.1⟩

theorem SyncInv.exec_push_next (h : SyncInv s) (b : Byte) : ∃ t, exec (.push b) s = .next t := by
  cases hk : classify (classCtx s) s.sync.st b with
  | some k => exact exec_push_next_of_selects (classify_eq_some_iff.mp hk) fun h3 => (h.body h3).len_le
  | none =>
    obtain ⟨h3, hc⟩ := classify_eq_none_iff.mp hk
    exact absurd (h.body h3).cnt_lt (Nat.not_lt.mpr hc)

theorem SyncInv.exec_decodeOp_next (h : SyncInv s) (e : Edge) : ∃ t, exec (decodeOp e) s = .next t := by
  rcases decodeOp_cases e with hop | hop | hop | hop | hop <;> rw [hop]
  · exact ⟨_, rfl⟩
  · exact ⟨_, rfl⟩
  · exact h.exec_push_next e.inByte
  · exact ⟨_, rfl⟩
  · exact ⟨_, rfl⟩

theorem step_next_of_inv (h : s.Inv) : ∃ t, step s = .next t := by
  obtain ⟨t, ht⟩ := h.takeEdge.sync.exec_decodeOp_next (nextEdge s)
  have hmain : exec (decodeEdge (nextEdge s)).main (takeEdge s) = .next t := ht
  cases ha : (decodeEdge (nextEdge s)).alongside with
  | true =>
    rw [step_of_alongside ha, hmain, exec_decode]
    exact ⟨_, rfl⟩
  | false =>
    rw [step_of_not_alongside ha, hmain]
    exact ⟨_, rfl⟩

end Sys2Proof.Machine

/-! IDLE edges between the others do not matter: they change what no operation reads (R78, R79). -/

namespace Sys2Proof.Machine
variable {s t : State} {is : List Edge} {x y : Bool}

/-- `s` with the two strobes at `x` and `y` and the edges `is` to come. -/
def withStrobes (x y : Bool) (is : List Edge) (s : State) : State :=
  { s with ev := { s.ev with evStb := x }, meas := { s.meas with stb := y }, inputs := is }

/-- `s` with the edges `is` to come. -/
def withInputs (is : List Edge) (s : State) : State := { s with inputs := is }

theorem finish_withStrobes {e : Option Event} (h : finish e s = .next t) :
    finish e (withStrobes x y is s) = .next (withInputs is t) := by
  rw [finish_next h]
  cases e with
  | none => rfl
  | some k => cases k <;> rfl

theorem idleSync_withStrobes (x y : Bool) (is : List Edge) (s : State) :
    idleSync (withStrobes x y is s) = withStrobes (idleSync s).ev.evStb y is (idleSync s) := by
  by_cases h : s.sync.st = 6 ∨ s.sync.st = 7
  · rw [idleSync_of_illegal h, idleSync_of_illegal (s := withStrobes x y is s) h]
    rfl
  · rw [idleSync_of_legal h, idleSync_of_legal (s := withStrobes x y is s) h]
    rfl

theorem execDecode_withStrobes (h : exec .decode s = .next t) :
    exec .decode (withStrobes x y is s) = .next (withInputs is t) := by
  cases h
  rw [exec_decode, idleSync_withStrobes]
  rfl

/-- A row is selected, and acts, whatever the strobes and the edges to come are. -/
theorem performClass_withStrobes {k : ByteClass} {b : Byte} (h : performClass k b s = .next t) :
    performClass k b (withStrobes x y is s) = .next (withInputs is t) := by
  cases k <;> simp only [performClass] at h <;> obtain ⟨hst, hk, h⟩ := ifSelected_next h <;>
    refine (ifSelected_of _ hst hk).trans ?_
  case data | ckloOk =>
    split at h
    next hi => exact (if_pos hi).trans (finish_withStrobes h)
    next => cases h
  case illegal => cases h; rfl
  all_goals exact finish_withStrobes h

theorem execPush_withStrobes {b : Byte} (h : exec (.push b) s = .next t) :
    exec (.push b) (withStrobes x y is s) = .next (withInputs is t) := by
  cases hk : classify (classCtx s) s.sync.st b with
  | some k =>
    rw [exec, execPush_of hk] at h
    exact (execPush_of (s := withStrobes x y is s) hk).trans (performClass_withStrobes h)
  | none => simp [exec, execPush, hk] at h

/-- Every operation of an edge writes EV_STB and MR_STB, and reads neither of them nor the edges to come (R82, R100). -/
theorem exec_decodeOp_withStrobes {e : Edge} (h : exec (decodeOp e) s = .next t) :
    exec (decodeOp e) (withStrobes x y is s) = .next (withInputs is t) := by
  rcases decodeOp_cases e with hop | hop | hop | hop | hop <;> rw [hop] at h ⊢
  · cases h; rfl
  · exact finish_withStrobes h
  · exact execPush_withStrobes h
  · exact execDecode_withStrobes h
  · cases h
    rw [exec, execIdle, idleSync_withStrobes]
    rfl

theorem step_withStrobes (h : step s = .next t) : step (withStrobes x y (nextEdge s :: is) s) = .next (withInputs is t) := by
  cases ha : (decodeEdge (nextEdge s)).alongside with
  | true =>
    rw [step_of_alongside ha] at h
    obtain ⟨u, v, hu, hv, rfl⟩ := alongside_next h
    rw [step_of_alongside (s := withStrobes x y (nextEdge s :: is) s) ha]
    exact congrArg₂ alongside (exec_decodeOp_withStrobes hu) (execDecode_withStrobes hv)
  | false =>
    rw [step_of_not_alongside ha] at h
    rw [step_of_not_alongside (s := withStrobes x y (nextEdge s :: is) s) ha]
    exact exec_decodeOp_withStrobes (s := takeEdge s) h

/-- An IDLE edge changes the strobes alone (R78). -/
theorem step_of_idle (he : (nextEdge s).opw = 0) (hst : s.sync.st.toNat ≤ 5) :
    step s = .next (withStrobes false false s.inputs.tail s) := by
  have hbit : ∀ i, (nextEdge s).opw.getLsbD i = false := fun i => by
    rw [he]
    exact BitVec.getLsbD_zero
  have hlegal : ¬ (s.sync.st = 6 ∨ s.sync.st = 7) := by rintro (h | h) <;> rw [h] at hst <;> revert hst <;> decide
  have hmain : (decodeEdge (nextEdge s)).main = .idle :=
    (decodeOp_eq_idle_iff _).mpr ⟨hbit 3, hbit 2, hbit 0, hbit 1⟩
  rw [step_of_not_alongside (decodeEdge_alone (.inl (hbit 1))), hmain]
  exact exec_idle_of_legal (s := takeEdge s) hlegal

/-- A host's edges without the IDLE edges (R79). -/
def nonIdle (es : List Edge) : List Edge := es.filter fun e => e.opw != 0

theorem nonIdle_cons_of_idle {e : Edge} (es : List Edge) (h : e.opw = 0) : nonIdle (e :: es) = nonIdle es :=
  List.filter_cons_of_neg (by simp [h])

theorem nonIdle_cons_of_not_idle {e : Edge} (es : List Edge) (h : e.opw ≠ 0) : nonIdle (e :: es) = e :: nonIdle es :=
  List.filter_cons_of_pos (bne_iff_ne.mpr h)

/-- Taking the IDLE edges out leads to the same state but for the strobes (R79). -/
theorem run_without_idle (es : List Edge) (x y : Bool) (hi : s.Inv) (hin : s.inputs = es) :
    ∃ (t : State) (x' y' : Bool), t.Inv ∧ Sys2Proof.core.run es.length s = .next t
      ∧ Sys2Proof.core.run (nonIdle es).length (withStrobes x y (nonIdle es) s) = .next (withStrobes x' y' [] t) := by
  induction es generalizing s x y with
  | nil => exact ⟨s, x, y, hi, rfl, rfl⟩
  | cons e es ih =>
    obtain ⟨u, hstep⟩ := step_next_of_inv hi
    have hu : u.Inv := stepKeepsTheInvariant s u hi hstep
    have hin' : u.inputs = es := by rw [(tablesNeverChange s u hstep).2, hin, List.tail_cons]
    have he : nextEdge s = e := nextEdge_of_inputs hin
    by_cases hidle : e.opw = 0
    · have hsame : u = withStrobes false false s.inputs.tail s :=
        Host.Outcome.next.inj (hstep.symm.trans (step_of_idle (he ▸ hidle) hi.sync.st_legal))
      obtain ⟨t, x', y', ht, hrun, hrun'⟩ := ih x y hu hin'
      rw [hsame] at hrun'
      rw [nonIdle_cons_of_idle es hidle]
      exact ⟨t, x', y', ht, (run_succ hstep _).trans hrun, hrun'⟩
    · obtain ⟨t, x', y', ht, hrun, hrun'⟩ := ih u.ev.evStb u.meas.stb hu hin'
      have hstep' := step_withStrobes (x := x) (y := y) (is := nonIdle es) hstep
      rw [he] at hstep'
      rw [nonIdle_cons_of_not_idle es hidle]
      exact ⟨t, x', y', ht, (run_succ hstep _).trans hrun, (run_succ hstep' _).trans hrun'⟩

/-- The edges to come are no part of Inv. -/
theorem State.Inv.withInputs (h : s.Inv) (is : List Edge) : (withInputs is s).Inv where
  legal := h.legal
  sync := h.sync.congr rfl rfl
  frame := h.frame.congr rfl
  complete ht := (h.complete ht).congr rfl rfl
  events := h.events.congr rfl
  meas := h.meas.congr rfl rfl rfl rfl

/-- Settles O50: both runs end in one state but for the strobes, which the host's reads of FBUF do not depend on. -/
theorem fragmentationDoesNotMatter : Obligations.FragmentationDoesNotMatter := by
  unfold Obligations.FragmentationDoesNotMatter
  intro s es hi
  obtain ⟨t, x, y, ht, hrun, hrun'⟩ := run_without_idle es s.ev.evStb s.meas.stb (hi.withInputs es) rfl
  have hread : ∀ i, hostReadFbuf t i = hostReadFbuf (withStrobes x y [] t) i := hostReadFbuf_congr rfl rfl
  refine ⟨t, withStrobes x y [] t, hrun, hrun', rfl, rfl, rfl, rfl, rfl, fun i hlt => ?_, hread⟩
  have hsome : hostReadFbuf t i = some (fbufByte t i) := if_pos (Nat.lt_of_lt_of_le hlt ht.frame.flen_le)
  exact ⟨_, hsome, (hread i).symm.trans hsome⟩

end Sys2Proof.Machine

/-! What a DECODE reads, and each field it writes (R82 to R98). -/

namespace Sys2Proof.Machine

section strip
variable (t : List Byte)

@[simp] theorem strip_nil : strip [] = [] := rfl

@[simp] theorem strip_cons_space : strip (0x20 :: t) = strip t := List.filter_cons_of_neg (by decide)

theorem strip_cons_of_ne {b : Byte} (h : b ≠ 0x20) : strip (b :: t) = b :: strip t :=
  List.filter_cons_of_pos (bne_iff_ne.mpr h)

theorem strip_length_le : (strip t).length ≤ t.length := List.length_filter_le _ _

end strip

/-- Settles O24 with the equations of `strip`. -/
theorem stripRemovesExactlySpaces : Obligations.StripRemovesExactlySpaces := by
  unfold Obligations.StripRemovesExactlySpaces
  exact ⟨strip_nil, strip_cons_space, fun _ t h => strip_cons_of_ne t h,
    fun d => (strip_length_le d.toList).trans_eq d.length_toList⟩

/-- A flag reaches its own bit of MR_FLAGS and no other (R31). -/
theorem getElem_flagBit (x : Bool) (j i : Nat) (hi : i < 11) : (flagBit x j)[i] = (decide (i = j) && x) := by
  rcases Nat.lt_trichotomy i j with hlt | rfl | hlt
  · simp [flagBit, hlt, hlt.ne]
  · simp [flagBit]
  · simp [flagBit, hlt.not_gt, hlt.ne', Nat.sub_ne_zero_of_lt hlt]

/-- Settles O26: each flag of `flagsOf` stands at its own bit. -/
theorem flagsFromThePayload : Obligations.FlagsFromThePayload := by
  unfold Obligations.FlagsFromThePayload
  intro s t h hv
  obtain ⟨m, k, v, u, -, hf⟩ := execDecode_fields h hv
  have hflags : t.meas.fields.flags = flagsOf (fbufByte s 11) (fbufByte s 12) (fbufByte s 13) := congrArg Fields.flags hf
  simp [hflags, flagsOf, flagsA, flagsB, flagsC, getElem_flagBit]

section scale
variable (p : Params) {k : MeasClass} (v : Decimal) {u : String}

theorem scale_ovl (u : String) : scale p .ovl v u = (v, false) := if_pos rfl

theorem scale_of_exp (hk : k ≠ .ovl) {e : Int} (he : p.exp u = some e) :
    scale p k v u = ({ v with exp := v.exp + e }, true) := by
  rw [scale, if_neg hk, he]

theorem scale_of_no_exp (hk : k ≠ .ovl) (he : p.exp u = none) : scale p k v u = (v, false) := by
  rw [scale, if_neg hk, he]

end scale

/-- A larger exponent is a power of ten more (R12). -/
theorem value_add_exp (v : Decimal) (e : Int) : Decimal.value { v with exp := v.exp + e } = v.value * (10 : ℚ) ^ e := by
  rw [Decimal.value, Decimal.value, zpow_add₀ (by norm_num), ← mul_assoc]

theorem getElem_displayOf (d : Nat → Byte) (j : Fin 7) : (displayOf d)[j] = d (2 + j) := by
  fin_cases j <;> rfl

/-- Two data bytes give at most 2805, so nothing of the progress is lost (R93). -/
theorem progressOf_toNat (d9 d10 : Byte) : (progressOf d9 d10).toNat = d9.toNat * 10 + d10.toNat := by
  have h9 := d9.isLt
  have h10 := d10.isLt
  simp only [progressOf, BitVec.toNat_add, BitVec.toNat_mul, BitVec.toNat_setWidth, BitVec.reduceToNat]
  omega

section success
variable {s t : State} {m u : String} {k : MeasClass} {v : Decimal}

theorem decodePayload_of_operands {p : Params} {d : Nat → Byte} (h : Operands p d m k v u) :
    decodePayload p d = .ok (operandFields p d k v u) := by
  obtain ⟨hmode, htext, hunit⟩ := h
  simp only [decodePayload, hmode, htext, hunit, operandFields]

/-- A frame of 14 data bytes whose operands are all found decodes to them (R82, R97). -/
theorem decodedMeas_of_operands (hvalid : s.frame.fvalid = true) (hlen : s.frame.flen = 14)
    (h : Operands s.params (fbufByte s) m k v u) :
    decodedMeas s = writeResult s.frame.fseq (.ok (operandFields s.params (fbufByte s) k v u)) := by
  have hok : inputOk s = true := by simp [inputOk, hvalid, hlen]
  rw [decodedMeas, decodeFrame, if_pos hok, decodePayload_of_operands h]

/-- A payload has one set of operands, so a successful DECODE wrote its fields from them. -/
theorem execDecode_fields_of_operands (h : exec .decode s = .next t) (hv : t.meas.valid = true)
    (ho : Operands s.params (fbufByte s) m k v u) : t.meas.fields = operandFields s.params (fbufByte s) k v u := by
  obtain ⟨m', k', v', u', ho', hf⟩ := execDecode_fields h hv
  cases ho.mode.symm.trans ho'.mode
  cases ho.text.symm.trans ho'.text
  cases ho.unit.symm.trans ho'.unit
  exact hf

theorem not_illegal_of_le {st : BitVec 3} (h : st.toNat ≤ 5) : ¬ (st = 6 ∨ st = 7) := by
  rintro (rfl | rfl) <;> exact absurd h (by decide)

/-- Settles O19: every step finds its operand, and the fields are written from them; a legal ST needs no recovery. -/
theorem decodeSuccessWritesTheResult : Obligations.DecodeSuccessWritesTheResult := by
  unfold Obligations.DecodeSuccessWritesTheResult
  intro s m u k v hst hvalid hlen hmode htext hunit
  have hmeas := decodedMeas_of_operands hvalid hlen ⟨hmode, htext, hunit⟩
  have hnext := exec_decode s
  rw [idleSync_of_legal (not_illegal_of_le hst), hmeas] at hnext
  refine ⟨_, hnext, rfl, rfl, rfl, rfl, rfl, rfl, rfl, getElem_displayOf (fbufByte s), ?_, fun hk => ⟨?_, ?_, ?_, ?_⟩, ?_,
    progressOf_toNat _ _, rfl⟩
  · cases k <;> rfl
  · exact scale_neg _ _ _ _
  · exact congrArg (BitVec.ofNat 24) (scale_mant _ _ _ _)
  · intro e he
    simp only [writeResult, operandFields, fieldsOf, scale_of_exp _ v hk he, and_self]
  · intro he
    simp only [writeResult, operandFields, fieldsOf, scale_of_no_exp _ v hk he, and_self]
  · rintro rfl
    exact congrArg Prod.snd (scale_ovl s.params v u)

theorem classCode_eq_one {k : MeasClass} (h : classCode k = 1) : k = .ovl := by
  revert h
  cases k <;> decide

/-- With tables that meet R7 the MR registers hold the scaled value in full (R30). -/
theorem outValue_of_operands {p : Params} {d : Nat → Byte} (hp : p.legal = true) (ho : Operands p d m k v u)
    (hv : t.meas.valid = true) (hf : t.meas.fields = operandFields p d k v u) (hk : k ≠ .ovl) :
    outValue t = some (scale p k v u).1.value := by
  have hcls : t.meas.fields.cls ≠ 1 := fun h => hk (classCode_eq_one ((congrArg Fields.cls hf).symm.trans h))
  have hmant : t.meas.fields.mant.toNat = (scale p k v u).1.mant := by
    rw [hf]
    exact mantBits_toNat (scale_mant p k v u ▸ ho.mant_le)
  have hexp : t.meas.fields.exp.toInt = (scale p k v u).1.exp := by
    obtain ⟨hlo, hhi⟩ := scale_exp_range hp k u ho.exp_range.1 ho.exp_range.2
    rw [hf]
    exact expBits_toInt hlo hhi
  have hneg : t.meas.fields.neg = (scale p k v u).1.neg := congrArg Fields.neg hf
  rw [outValue, if_pos ⟨hv, hcls⟩, hneg, hmant, hexp]

/-- Settles O25: `scale` adds the exponent and sets MR_STRIP together, and the registers hold what it gives. -/
theorem scalingIsExact : Obligations.ScalingIsExact := by
  unfold Obligations.ScalingIsExact
  intro s t m u k v hp h hv hmode hunit htext hk
  have ho : Operands s.params (fbufByte s) m k v u := ⟨hmode, htext, hunit⟩
  have hf := execDecode_fields_of_operands h hv ho
  have hvalue := outValue_of_operands hp ho hv hf hk
  have hstrip : t.meas.fields.strip = (scale s.params k v u).2 := congrArg Fields.strip hf
  have hout : outUnit t = some (if t.meas.fields.strip then String.ofList (u.toList.drop 1) else u) := by
    obtain ⟨m', u', hmode', hunit', -, -, -, hout, -⟩ := derivedOutputsAreDefined.1 s t h hv
    cases hmode.symm.trans hmode'
    cases hunit.symm.trans hunit'
    exact hout
  rw [hstrip] at hout
  refine ⟨fun e he => ?_, fun he => ?_⟩
  · rw [scale_of_exp _ v hk he] at hvalue hout
    exact ⟨hvalue.trans (congrArg some (value_add_exp v e)), hout⟩
  · rw [scale_of_no_exp _ v hk he] at hvalue hout
    exact ⟨hvalue, hout⟩

end success

/-! DECODE reads the first 14 bytes of FBUF, FLEN, FVALID and the tables, and nothing else (R98). -/

/-- The two states agree on all that DECODE reads, FSEQ apart. -/
structure SameDecodeInputs (s s' : State) : Prop where
  bytes : ∀ i, i < 14 → fbufByte s i = fbufByte s' i
  flen : s.frame.flen = s'.frame.flen
  fvalid : s.frame.fvalid = s'.frame.fvalid
  modeTable : s.params.modeTable = s'.params.modeTable
  unitTable : s.params.unitTable = s'.params.unitTable
  expTable : s.params.expTable = s'.params.expTable

theorem displayOf_congr {d d' : Nat → Byte} (h : ∀ i, i < 14 → d i = d' i) : displayOf d = displayOf d' := by
  simp [displayOf, h]

theorem fieldsOf_congr {d d' : Nat → Byte} (h : ∀ i, i < 14 → d i = d' i) : fieldsOf d = fieldsOf d' := by
  funext k v b
  simp [fieldsOf, displayOf_congr h, h]

namespace SameDecodeInputs
variable {s s' : State}

theorem mode_eq (h : SameDecodeInputs s s') : s.params.mode = s'.params.mode := by
  funext i
  rw [Params.mode, Params.mode, h.modeTable]

theorem unit_eq (h : SameDecodeInputs s s') : s.params.unit = s'.params.unit := by
  funext m rng
  rw [Params.unit, Params.unit, h.unitTable]

theorem scale_eq (h : SameDecodeInputs s s') : scale s.params = scale s'.params := by
  funext k v u
  simp only [scale, Params.exp, h.expTable]

theorem decodePayload_eq (h : SameDecodeInputs s s') :
    decodePayload s.params (fbufByte s) = decodePayload s'.params (fbufByte s') := by
  simp only [decodePayload, h.mode_eq, h.unit_eq, h.scale_eq, displayOf_congr h.bytes, fieldsOf_congr h.bytes,
    h.bytes 0 (by decide), h.bytes 1 (by decide)]

theorem decodeFrame_eq (h : SameDecodeInputs s s') : decodeFrame s = decodeFrame s' := by
  have hok : inputOk s = inputOk s' := by rw [inputOk, inputOk, h.flen, h.fvalid]
  rw [decodeFrame, decodeFrame, hok, h.decodePayload_eq]

theorem decodedMeas_eq (h : SameDecodeInputs s s') : decodedMeas s = { decodedMeas s' with fseq := s.frame.fseq } := by
  rw [decodedMeas, decodedMeas, h.decodeFrame_eq]
  cases decodeFrame s' <;> rfl

theorem decodedMeas_eq_of_fseq (h : SameDecodeInputs s s') (hs : s.frame.fseq = s'.frame.fseq) :
    decodedMeas s = decodedMeas s' := by
  rw [decodedMeas, decodedMeas, h.decodeFrame_eq, hs]

end SameDecodeInputs

section edge
variable {s t : State}

/-- An edge that is no RESET and raises no FRAME_OK leaves the frame alone (R40). -/
theorem step_keepsFrame (h : step s = .next t) (hr : (nextEdge s).rst = false)
    (hno : ¬ (t.ev.evStb = true ∧ t.ev.lastEv = 1)) : KeepsFrame s t := by
  obtain ⟨u, m, ht⟩ := step_move_but_meas hr h
  rw [ht] at hno ⊢
  rcases m.keepsFrame_or_publishes with hk | hp
  · exact ⟨hk.frame, hk.fbufDraw, hno⟩
  · exact absurd hp.frameOk hno

theorem KeepsFrame.sameDecodeInputs (h : KeepsFrame s t) (hp : t.params = s.params) : SameDecodeInputs s t where
  bytes i _ := by simp only [fbufByte, h.frame, h.fbufDraw]
  flen := by rw [h.frame]
  fvalid := by rw [h.frame]
  modeTable := by rw [hp]
  unitTable := by rw [hp]
  expTable := by rw [hp]

end edge

/-- Settles O28: equal inputs give equal results, and an edge that completes no frame keeps those inputs and FSEQ. -/
theorem decodeIsPure : Obligations.DecodeIsPure := by
  unfold Obligations.DecodeIsPure
  refine ⟨fun s s' t t' hb hl hv hm hu he h h' => ?_, fun s t u v h hr hno hu hv => ?_⟩
  · rw [execDecode_meas h, execDecode_meas h']
    exact SameDecodeInputs.decodedMeas_eq ⟨hb, hl, hv, hm, hu, he⟩
  · have hk := step_keepsFrame h hr hno
    have hsame := hk.sameDecodeInputs (tablesNeverChange s t h).1
    rw [execDecode_meas hu, execDecode_meas hv]
    exact hsame.decodedMeas_eq_of_fseq (congrArg FrameOut.fseq hk.frame.symm)

end Sys2Proof.Machine

/-! The MR registers do not reach the synchronizer (R82, R102): the operations without DECODE carry them along. -/

namespace Sys2Proof.Machine
variable {o o' : Result} {m : Meas}

/-- The outcome `o` of an operation without DECODE, had the MR registers been `m` beforehand. -/
def withMeas (m : Meas) : Result → Result
  | .next t => .next { t with meas := { m with stb := false } }
  | .fault r => .fault r
  | .refused r => .refused r

theorem finish_withMeas (e : Option Event) (s : State) (m : Meas) :
    finish e { s with meas := m } = withMeas m (finish e s) := by
  cases e with
  | none => rfl
  | some k => cases k <;> rfl

/-- No row is selected by the MR registers (R60). -/
theorem ifSelected_withMeas {s : State} {st : BitVec 3} {b : Byte} {k : ByteClass} (h : o' = withMeas m o) :
    ifSelected { s with meas := m } st b k o' = withMeas m (ifSelected s st b k o) := by
  unfold ifSelected
  by_cases hc : s.sync.st = st ∧ classify (classCtx s) st b = some k
  · rw [if_pos hc]
    exact (if_pos hc).trans h
  · rw [if_neg hc]
    exact if_neg hc

/-- A row that stops where its byte does not exist does so whatever the MR registers hold (R36). -/
theorem ite_withMeas {c : Prop} [Decidable c] {r : Fault} (h : o' = withMeas m o) :
    (if c then o' else .fault r) = withMeas m (if c then o else .fault r) := by
  rw [apply_ite (withMeas m), h]
  rfl

theorem idleSync_withMeas (s : State) (m : Meas) : idleSync { s with meas := m } = { idleSync s with meas := m } := by
  by_cases h : s.sync.st = 6 ∨ s.sync.st = 7
  · rw [idleSync_of_illegal h, idleSync_of_illegal (s := { s with meas := m }) h]
    rfl
  · rw [idleSync_of_legal h, idleSync_of_legal (s := { s with meas := m }) h]
    rfl

theorem exec_row_withMeas {i : Instr} {k : ByteClass} (hk : i.byteClass = some k) (s : State) (m : Meas) :
    exec i { s with meas := m } = withMeas m (exec i s) := by
  cases i
  case reset | clear | push | decode | idle => cases hk
  case bHdr1 | bHdr1Resident | bNoise | bNoiseResident | bHdr2 | bRehunt | bResync =>
    exact ifSelected_withMeas (finish_withMeas _ (setSt _ s) m)
  case bLenOk | bLenErr | bCkhi | bCkloBad => exact ifSelected_withMeas (finish_withMeas _ { s with sync := _ } m)
  case bData => exact ifSelected_withMeas (ite_withMeas (finish_withMeas _ { s with sync := _ } m))
  case bCkloOk b => exact ifSelected_withMeas (ite_withMeas (finish_withMeas _ (completeFrame s b) m))
  case stIllegal => exact ifSelected_withMeas rfl

theorem exec_withMeas {i : Instr} (hr : i ≠ .reset) (hd : i ≠ .decode) (s : State) (m : Meas) :
    exec i { s with meas := m } = withMeas m (exec i s) := by
  cases hk : i.byteClass with
  | some k => exact exec_row_withMeas hk s m
  | none =>
    cases i
    case reset => exact absurd rfl hr
    case decode => exact absurd rfl hd
    case clear => exact finish_withMeas _ { s with sync := _ } m
    case idle =>
      rw [exec, execIdle, idleSync_withMeas]
      rfl
    case push b =>
      cases hrow : classify (classCtx s) s.sync.st b with
      | some c =>
        rw [exec_push_eq hrow, exec_push_eq (s := { s with meas := m }) hrow]
        exact exec_row_withMeas (byteClass_toInstr _ _) s m
      | none =>
        obtain ⟨h3, hc⟩ := classify_eq_none_iff.mp hrow
        rw [exec_push_of_no_row h3 hc]
        exact exec_push_of_no_row (s := { s with meas := m }) h3 hc
    all_goals cases hk

/-- Settles O39: the outcome with other MR registers is the outcome with them exchanged, which keeps faults and refusals. -/
theorem synchronizerIgnoresTheResult : Obligations.SynchronizerIgnoresTheResult := by
  unfold Obligations.SynchronizerIgnoresTheResult
  intro i s m hr hd
  have hsame := exec_withMeas hr hd s m
  exact ⟨fun t h => hsame.trans (congrArg (withMeas m) h), fun r h => hsame.trans (congrArg (withMeas m) h),
    fun r h => hsame.trans (congrArg (withMeas m) h)⟩

end Sys2Proof.Machine

/-! The decode errors in step order (R105): what each of them needs of the frame and the payload. -/

namespace Sys2Proof.Machine

section payload
variable {p : Params} {d : Nat → Byte} {m : String}

theorem decodePayload_of_no_mode (hmode : p.mode (d 0).toNat = none) : decodePayload p d = .error .mode := by
  rw [decodePayload, hmode]

theorem decodePayload_of_no_text (hmode : p.mode (d 0).toNat = some m)
    (htext : classifyText (strip (displayOf d).toList) = none) : decodePayload p d = .error .parse := by
  rw [decodePayload, hmode]
  simp only [htext]

theorem decodePayload_of_no_unit (hmode : p.mode (d 0).toNat = some m)
    (htext : classifyText (strip (displayOf d).toList) ≠ none) (hunit : p.unit m (d 1) = none) :
    decodePayload p d = .error .unit := by
  obtain ⟨⟨k, v⟩, hkv⟩ := Option.ne_none_iff_exists'.mp htext
  rw [decodePayload, hmode]
  simp only [hkv, hunit]

end payload

section frame
variable {s : State}

theorem inputOk_iff (s : State) : inputOk s = true ↔ s.frame.fvalid = true ∧ s.frame.flen = 14 := by
  simp [inputOk]

/-- Without a frame of 14 data bytes nothing is decoded (R83). -/
theorem decodedMeas_of_no_input (h : ¬ (s.frame.fvalid = true ∧ s.frame.flen = 14)) :
    decodedMeas s = writeResult s.frame.fseq (.error .input) := by
  rw [decodedMeas, decodeFrame, if_neg (mt (inputOk_iff s).mp h)]

theorem decodedMeas_of_payload {r : Except DecodeError Fields} (hvalid : s.frame.fvalid = true)
    (hlen : s.frame.flen = 14) (h : decodePayload s.params (fbufByte s) = r) :
    decodedMeas s = writeResult s.frame.fseq r := by
  rw [decodedMeas, decodeFrame, if_pos ((inputOk_iff s).mpr ⟨hvalid, hlen⟩), h]

end frame

/-- Settles O20: each error is that of the first step which finds nothing, and a legal ST needs no recovery. -/
theorem decodeErrorsInStepOrder : Obligations.DecodeErrorsInStepOrder := by
  unfold Obligations.DecodeErrorsInStepOrder
  refine fun s => ⟨_, exec_decode s, decodedMeas_of_no_input, fun hvalid hlen => ⟨fun hmode => ?_, fun m hmode =>
    ⟨fun htext => ?_, fun htext hunit => ?_⟩⟩, fun hst => ?_⟩
  · have hnone : s.params.mode (fbufByte s 0).toNat = none := List.getElem?_eq_none hmode
    exact decodedMeas_of_payload hvalid hlen (decodePayload_of_no_mode hnone)
  · exact decodedMeas_of_payload hvalid hlen (decodePayload_of_no_text hmode htext)
  · exact decodedMeas_of_payload hvalid hlen (decodePayload_of_no_unit hmode htext hunit)
  · rw [idleSync_of_legal (not_illegal_of_le hst)]
    rfl

end Sys2Proof.Machine

/-! Events (R99 to R101): how an edge records its event, and what each event leaves in the registers. -/

namespace Sys2Proof.Machine
variable {s t : State} {b : Byte} {v : BitVec 3}

/-- R100: without an event LAST_EV and ESEQ stay; FRAME_OK does not count in ESEQ, an error does. -/
theorem recordEvent_counts (e : Option Event) (s : State) :
    ((recordEvent e s).ev.evStb = false →
      (recordEvent e s).ev.lastEv = s.ev.lastEv ∧ (recordEvent e s).ev.eseq = s.ev.eseq)
    ∧ ((recordEvent e s).ev.evStb = true →
        ((recordEvent e s).ev.lastEv = 1 ∧ (recordEvent e s).ev.eseq = s.ev.eseq)
        ∨ (((recordEvent e s).ev.lastEv = 2 ∨ (recordEvent e s).ev.lastEv = 3 ∨ (recordEvent e s).ev.lastEv = 4)
            ∧ (recordEvent e s).ev.eseq = s.ev.eseq + 1)) := by
  cases e with
  | none => exact ⟨fun _ => ⟨rfl, rfl⟩, fun h => (nomatch h)⟩
  | some k => cases k <;> simp

/-- Settles O36: a move of the synchronizer ends in one `recordEvent`, and DECODE writes no event register. -/
theorem eventsAreRecorded : Obligations.EventsAreRecorded := by
  unfold Obligations.EventsAreRecorded
  intro s t h hr
  obtain ⟨u, m, ht⟩ := step_move_but_meas hr h
  obtain ⟨e, w, rfl, hw⟩ := m.records
  have hcounts := recordEvent_counts e w
  rw [hw] at hcounts
  rw [ht]
  exact hcounts

theorem eventCode_injective : Function.Injective eventCode := by
  intro j k h
  revert h
  cases j <;> cases k <;> decide

/-- An edge takes `b` as the last body byte: CKRX holds the received checksum, CNT counts `b`, and ST goes to `v` (R74, R75). -/
structure EndsBody (s : State) (b : Byte) (v : BitVec 3) (t : State) : Prop where
  body : s.sync.st = 3
  last : s.sync.cnt.toNat + 1 = s.sync.len.toNat
  sync : t.sync = { s.sync with ckrx := joinBytes s.sync.ckhi b, cnt := s.sync.cnt + 1, st := v }
  abufDraw : t.abufDraw = s.abufDraw

theorem EndsBody.len_eq (h : EndsBody s b v t) : t.sync.len = s.sync.len := by
  rw [h.sync]

/-- With the last body byte to come, the LEN - 2 data bytes stand in ABUF and SUM is their checksum (R18). -/
theorem BodyInv.sum_of_last (h : BodyInv s) (hc : s.sync.cnt.toNat + 1 = s.sync.len.toNat) :
    s.sync.sum = cks s.sync.len ((List.range (s.sync.len.toNat - 2)).map (abufByte s)) := by
  have hn : dataCount s = s.sync.len.toNat - 2 := Nat.min_eq_right (by omega)
  rw [← hn]
  exact h.sum_eq

/-- A body that ends leaves SUM the checksum of the bytes accepted, and CNT at LEN (R101). -/
theorem EndsBody.sum_and_cnt (h : EndsBody s b v t) (hs : SyncInv s) :
    t.sync.sum = cks t.sync.len ((List.range (t.sync.len.toNat - 2)).map (abufByte t))
    ∧ t.sync.cnt.toNat = t.sync.len.toNat := by
  obtain ⟨h3, hc, hsync, hdraw⟩ := h
  rw [abufByte_congr (by rw [hsync]) hdraw, hsync]
  exact ⟨(hs.body h3).sum_of_last hc, (hs.cnt_full h3 hc).1⟩

/-- What an edge with the byte `b` leaves behind when it raises the event (R101). -/
def EventLeaves (s : State) (b : Byte) (t : State) : Event → Prop
  | .frameOk => PublishesFrame s b t ∧ EndsBody s b 4 t
  | .errLen => KeepsFrame s t ∧ t.sync = { s.sync with len := b, st := 5 }
  | .errCksum => KeepsFrame s t ∧ s.sync.sum ≠ joinBytes s.sync.ckhi b ∧ EndsBody s b 5 t
  | .errState => KeepsFrame s t ∧ t.sync = { s.sync with st := 5 }

/-- Each event is raised by one move of the synchronizer (R99). -/
theorem SyncMove.eventLeaves (m : SyncMove s b t) (h : t.ev.evStb = true) :
    ∃ k, t.ev.lastEv = eventCode k ∧ EventLeaves s b t k := by
  cases m
  case clear | idle | hunt | lenOk | data | ckhi => cases h
  case recover => exact ⟨.errState, rfl, .of_event (by decide) rfl rfl, rfl⟩
  case lenErr => exact ⟨.errLen, rfl, .of_event (by decide) rfl rfl, rfl⟩
  case ckloOk h3 hc hle hsum =>
    exact ⟨.frameOk, rfl, ⟨h3, hc, by omega, hsum, rfl, rfl, rfl⟩, h3, hc, rfl, rfl⟩
  case ckloBad h3 hc hsum => exact ⟨.errCksum, rfl, .of_event (by decide) rfl rfl, hsum, h3, hc, rfl, rfl⟩

/-- The frame published is the LEN - 2 data bytes that ABUF still holds (R74). -/
theorem EndsBody.reads_frame (h : EndsBody s b v t) (hb : BodyInv s) (hp : PublishesFrame s b t) :
    t.frame.flen.toNat = t.sync.len.toNat - 2
    ∧ ∀ i, i < t.sync.len.toNat - 2 → hostReadFbuf t i = some (abufByte t i) := by
  obtain ⟨hlen, hread⟩ := hp.data_eq hb.len_ge
  rw [abufByte_congr (by rw [h.sync]) h.abufDraw, h.sync]
  exact ⟨hlen, fun i hi => hread i (hlen ▸ hi)⟩

/-- Settles O37, event by event. -/
theorem eventLeavesItsRegisters : Obligations.EventLeavesItsRegisters := by
  unfold Obligations.EventLeavesItsRegisters
  intro s t h hr hev
  obtain ⟨u, m, ht⟩ := step_move_but_meas hr h
  rw [ht] at hev ⊢
  obtain ⟨k, hk, hleft⟩ := m.eventLeaves hev
  have hevent : ∀ {j}, u.ev.lastEv = eventCode j → k = j := fun hj => eventCode_injective (hk.symm.trans hj)
  refine ⟨fun hne => ?_, fun h1 hi => ?_, fun h2 => ?_, fun h3 hi => ?_, fun h4 => ?_⟩
  · have hkeep : KeepsFrame (takeEdge s) u := m.keepsFrame_or_publishes.resolve_right fun hp => hne hp.frameOk.2
    exact hostReadFbuf_congr hkeep.frame hkeep.fbufDraw
  · obtain rfl := hevent (j := .frameOk) h1
    obtain ⟨hpub, hend⟩ := hleft
    obtain ⟨hsum, hcnt⟩ := hend.sum_and_cnt hi.takeEdge.sync
    obtain ⟨hlen, hread⟩ := hend.reads_frame (hi.takeEdge.sync.body hend.body) hpub
    have hck : u.sync.ckrx = u.sync.sum := by rw [hend.sync, hpub.sum_eq]
    exact ⟨congrArg Sync.st hend.sync, hend.len_eq, hck, hsum, hcnt, congrArg FrameOut.fseq hpub.frame,
      congrArg FrameOut.fvalid hpub.frame, hlen, hread⟩
  · obtain rfl := hevent (j := .errLen) h2
    obtain ⟨hkeep, hsync⟩ := hleft
    exact ⟨hsync, hkeep.frame⟩
  · obtain rfl := hevent (j := .errCksum) h3
    obtain ⟨hkeep, hne, hend⟩ := hleft
    obtain ⟨hsum, hcnt⟩ := hend.sum_and_cnt hi.takeEdge.sync
    have hck : u.sync.ckrx ≠ u.sync.sum := by
      rw [hend.sync]
      exact hne.symm
    exact ⟨congrArg Sync.st hend.sync, hend.len_eq, hck, hsum, congrArg Sync.ckrx hend.sync, hcnt,
      hkeep.frame⟩
  · obtain rfl := hevent (j := .errState) h4
    obtain ⟨hkeep, hsync⟩ := hleft
    exact ⟨hsync, hkeep.frame⟩

end Sys2Proof.Machine

/-! RESET (R112): its reset values, and the invariant they satisfy. -/

namespace Sys2Proof.Machine
variable {s : State}

/-- RESET has a next state from every state; what it keeps are the parameters and the edges to come (R112). -/
theorem exec_reset (s : State) :
    exec .reset s = .next { State.reset with
      params := s.params, inputs := s.inputs, abufDraw := s.abufDraw + 1, fbufDraw := s.fbufDraw + 1 } := rfl

/-- MR_DISP resets to seven bytes 0 (R30). -/
theorem zero_disp_getElem : ∀ j : Fin 7, Fields.zero.disp[j] = 0 := by decide

/-- Settles O1: the registers of the state RESET answers are those of `State.reset`, and rst overrides the other inputs. -/
theorem resetSetsEveryRegister : Obligations.ResetSetsEveryRegister := by
  unfold Obligations.ResetSetsEveryRegister
  refine ⟨fun s => ⟨_, exec_reset s, ?_⟩, fun s hr => step_reset hr⟩
  exact ⟨rfl, rfl, rfl, rfl, rfl, rfl, rfl, rfl, rfl, rfl, rfl, rfl, rfl, rfl, rfl, rfl, rfl, rfl, zero_disp_getElem,
    rfl, rfl, rfl, rfl, rfl, rfl, rfl, rfl, rfl⟩

/-- The parameters after reset meet R7: built with such tables, or the fixture in their place (log entry 2). -/
theorem config_params_legal : Config.params.legal = true := by
  unfold Config.params
  split
  next hbuilt => exact hbuilt
  next => decide

/-- Outside READ_BODY the invariant speaks of no unspecified byte, so the draw numbers are free (log entry 3). -/
theorem State.Inv.withDraws (h : s.Inv) (h3 : s.sync.st ≠ 3) (m n : Nat) :
    State.Inv { s with abufDraw := m, fbufDraw := n } where
  legal := h.legal
  sync := ⟨h.sync.st_legal, h.sync.cnt_le, h.sync.abuf_wf, fun hst => absurd hst h3⟩
  frame := h.frame.congr rfl
  complete h4 := (h.complete h4).congr rfl rfl
  events := h.events.congr rfl
  meas := h.meas.congr rfl rfl rfl rfl

/-- RESET performed in `State.reset` answers `State.reset` itself, but for the draw numbers. -/
theorem inv_state_reset : State.reset.Inv :=
  (inv_of_reset (s := State.reset) config_params_legal (exec_reset State.reset)).withDraws (by decide) 0 0

/-- Settles O45: R112 leads into Inv from legal tables, and the block's own tables are legal. -/
theorem resetMeetsTheInvariant : Obligations.ResetMeetsTheInvariant := by
  unfold Obligations.ResetMeetsTheInvariant
  exact ⟨inv_state_reset, fun s hp => ⟨_, exec_reset s, rfl, inv_of_reset hp (exec_reset s)⟩⟩

end Sys2Proof.Machine

/-! Hazards: every edge is taken (R123), and a DECODE on the edge that completes a frame (R116). -/

namespace Sys2Proof.Machine

/-- Settles O47: a row always holds, and its index is in its buffer. -/
theorem everyEdgeIsTaken : Obligations.EveryEdgeIsTaken := by
  unfold Obligations.EveryEdgeIsTaken
  exact fun _ hi => step_next_of_inv hi

/-- Settles O33: the edge publishes both the frame (O34) and the result of DECODE, which reads the state before it (O35). -/
theorem decodeOnTheFrameEdgeReadsTheOldFrame : Obligations.DecodeOnTheFrameEdgeReadsTheOldFrame := by
  unfold Obligations.DecodeOnTheFrameEdgeReadsTheOldFrame
  intro s t u h hopw hstb hev hu
  have hrst : (nextEdge s).opw.getLsbD 3 = false := by rw [hopw]; decide
  have hdec : (nextEdge s).opw.getLsbD 1 = true := by rw [hopw]; decide
  obtain ⟨-, hmseq, v, hv, hmeas⟩ := (resultPublicationIsAtomic s t h hrst).2 hdec
  obtain rfl : v = u := Host.Outcome.next.inj (hv.symm.trans hu)
  rcases framePublicationIsAtomic s t h hrst with ⟨-, -, hno⟩ | ⟨-, -, -, hvalid, hseq, -⟩
  · exact absurd ⟨hstb, hev⟩ hno
  · exact ⟨hmeas, hmseq, hseq, hvalid⟩

end Sys2Proof.Machine
